-- ==== Sys2Proof/Word.lean ====
section
/-! DEFINITION. The word types of the engine (00_scope.md R9, R14; 30_encoding.md R91). -/

namespace Sys2Proof

/-- An unsigned 8-bit byte (R14). -/
abbrev Byte := BitVec 8

/-- One 64-bit lane of the permutation state (R9, R14). -/
abbrev Lane := BitVec 64

/-- The lane file: 25 lanes, 1600 bits (R9, R21). `LANE[n]` is index `n`. -/
abbrev Lanes := Vector Lane 25

/-- The 32-bit command word and the 32-bit STATUS word (R91, R34). -/
abbrev Word32 := BitVec 32

end Sys2Proof
end

