-- ==== Sys2Proof/Config.lean ====
section
/-! DEFINITION. What an implementation fixes. The one open parameter of the spec, MAX_OUT_BYTES (00_scope.md R11), is a
field of the machine's state (`Machine.State.maxOutBytes`), so that every statement about every state is a statement
about every value of it. -/

namespace Sys2Proof

/-- The value `State.reset` holds for the open parameter MAX_OUT_BYTES: the one the spec's own vectors are computed
with (95_test_vectors.md). DESIGN CHOICE, unsafe for a claim made of the reset state alone; log entry 3. No statement
rests on it. -/
def Config.referenceMaxOutBytes : Nat := 65536

end Sys2Proof
end

