-- ==== Sys2Proof/Syntax.lean ====
section
/-! DEFINITION. The engine's commands: one constructor per row of the opcode table (30_encoding.md R95), with the
operands the command word and its payload assemble to (R93). -/

namespace Sys2Proof

/-- The eleven assigned opcodes (R95). -/
inductive Opcode where
  | init | absorb | digest | squeeze | fastsqz | ksxor | permute | rdlane | wrlane | dispose | stat
deriving DecidableEq, Repr

/-- One command with its operands (R93). -/
inductive Instr where
  /-- INIT r, c, o: start a session (R200). -/
  | init (r c o : Word32)
  /-- ABSORB data: append input and absorb every whole rate block (R202). -/
  | absorb (data : List Byte)
  /-- DIGEST [final]: pad, absorb, enter SQUEEZING, output the first block (R204). -/
  | digest (final : List Byte)
  /-- SQUEEZE: output the next block (R206). -/
  | squeeze
  /-- FASTSQZ k: k squeezes with their output discarded (R208). -/
  | fastsqz (k : BitVec 16)
  /-- KSXOR data: XOR data with the next keystream bytes (R241). -/
  | ksxor (data : List Byte)
  /-- PERMUTE: apply F to the lane file once (R150). -/
  | permute
  /-- RDLANE i: read one lane (R151). -/
  | rdlane (i : Fin 25)
  /-- WRLANE i, v: write one lane (R152). -/
  | wrlane (i : Fin 25) (v : Lane)
  /-- DISPOSE: end the session and clear all state (R210). -/
  | dispose
  /-- STAT: read the status (R212). -/
  | stat
deriving DecidableEq, Repr

/-- The opcode of a command. -/
def Instr.opcode : Instr → Opcode
  | .init _ _ _ => .init
  | .absorb _ => .absorb
  | .digest _ => .digest
  | .squeeze => .squeeze
  | .fastsqz _ => .fastsqz
  | .ksxor _ => .ksxor
  | .permute => .permute
  | .rdlane _ => .rdlane
  | .wrlane _ _ => .wrlane
  | .dispose => .dispose
  | .stat => .stat

end Sys2Proof
end

