-- ==== Sys2Proof/Machine/State.lean ====
section
/-! DEFINITION. The engine's architectural state (10_state.md R20 to R33), the host interface around it (20_memory.md
R75), the ways a step can stop, and the state after reset (70_reset_and_hazards.md R310). -/

namespace Sys2Proof.Machine

/-- PHASE (R27). The value 3 is never held, so the type has no name for it. -/
inductive Phase where
  | uninit | absorbing | squeezing
deriving DecidableEq, Repr

/-- The five errors a command can raise (R270, codes 1 to 5). -/
inductive Err where
  | invalidSpec | illegalOpcode | badOperand | notInitialised | wrongPhase
deriving DecidableEq, Repr

/-- What CAUSE holds: NONE, or the error that set FAULT (R32, R270). -/
inductive Cause where
  | none
  | err (e : Err)
deriving DecidableEq, Repr

/-- What LAST holds: OK, the error the command raised, or LOCKED (R33, R270). -/
inductive Last where
  | ok
  | err (e : Err)
  | locked
deriving DecidableEq, Repr

/-- The engine's architectural state, exactly the list of R20. -/
structure Engine where
  /-- LANE[0..24] (R21). -/
  lanes : Lanes
  /-- PENDING (R25). -/
  pending : List Byte
  /-- RATE_BITS, 11 bits (R26). -/
  rateBits : BitVec 11
  /-- CAP_BITS, 11 bits (R26). -/
  capBits : BitVec 11
  /-- OUT_BITS, 32 bits (R26). -/
  outBits : BitVec 32
  /-- PHASE (R27). -/
  phase : Phase
  /-- KSBLK (R29). -/
  ksblk : List Byte
  /-- KSPTR (R30). -/
  ksptr : Nat
  /-- FAULT (R31). -/
  fault : Bool
  /-- CAUSE (R32). -/
  cause : Cause
  /-- LAST (R33). -/
  last : Last
deriving DecidableEq, Repr

/-- Every piece of architectural state at its reset value (R310). -/
def Engine.reset : Engine where
  lanes := Vector.replicate 25 0
  pending := []
  rateBits := 0
  capBits := 0
  outBits := 0
  phase := .uninit
  ksblk := []
  ksptr := 0
  fault := false
  cause := .none
  last := .ok

/-- What the host does next (R75), and the two ways it can break a duty of R75 beside a wrong payload length (R76). -/
inductive HostAction where
  /-- Issue one command: a word and its payload. -/
  | command (word : Word32) (payload : List Byte)
  /-- Raise reset between commands. -/
  | reset
  /-- Issue a command before the previous response has come (a broken duty, R76). -/
  | commandBeforeResponse (word : Word32) (payload : List Byte)
  /-- Raise reset during a command (a broken duty, R76). -/
  | resetDuringCommand
deriving DecidableEq, Repr

/-- A response: the STATUS word after the command, and the data bytes (R90). A copy, fixed at completion (R316). -/
structure Response where
  status : Word32
  data : List Byte
deriving DecidableEq, Repr

/-- One engine and its command channel. -/
structure State where
  /-- The engine (R20). -/
  engine : Engine
  /-- MAX_OUT_BYTES, the open parameter (R11, at least 1): an argument of the model that no command writes (log 3). -/
  maxOutBytes : Nat
  /-- What the host does next, oldest first: the run's command sequence (R37, log 1). -/
  actions : List HostAction
  /-- The responses returned so far, oldest first (R90, R316, log 2). -/
  responses : List Response
deriving DecidableEq, Repr

/-- Why the machine can stop with a fault. -/
inductive Fault where
  /-- Raised by ABSORB, DIGEST, SQUEEZE, FASTSQZ and KSXOR in a session whose configuration, KSBLK or KSPTR is outside
  the range its register has (R26, R29, R30), where the loops of R191, R192 and R241 have no result. No run reaches such
  a state, so this is safe; log 5. -/
  | brokenSession
deriving DecidableEq, Repr

/-- Why the model gives a step no result. -/
inductive Refusal where
  /-- An instruction without a meaning, by its table mnemonic. No arm of `exec` answers it. Safe. -/
  | notModelled (mnemonic : String)
  /-- Raised by `step` for a payload that is not PLEN(word) bytes, as R76 requires. Safe; log 4. -/
  | payloadLength
  /-- Raised by `step` for a command issued before the previous response, as R76 requires. Safe; log 4. -/
  | commandBeforeResponse
  /-- Raised by `step` for reset during a command, as R76 requires. Safe; log 4. -/
  | resetDuringCommand
deriving DecidableEq, Repr

/-- An engine with the given MAX_OUT_BYTES right after reset, with a host that has done nothing yet (R310, R313). -/
def State.resetWith (maxOutBytes : Nat) : State where
  engine := Engine.reset
  maxOutBytes := maxOutBytes
  actions := []
  responses := []

/-- The machine right after reset (R310). Its MAX_OUT_BYTES is a DESIGN CHOICE; log 3. -/
def State.reset : State := State.resetWith Config.referenceMaxOutBytes

end Sys2Proof.Machine
end

