-- ==== Sys2Proof/Machine/Flags.lean ====
section
/-! DEFINITION. The codes of PHASE, FAULT, CAUSE and LAST (10_state.md R27, R31; 60_exceptions.md R270) and the STATUS
word composed from them (R34). -/

namespace Sys2Proof.Machine

/-- The 2-bit value of PHASE (R27). -/
def Phase.code : Phase → BitVec 2
  | .uninit => 0
  | .absorbing => 1
  | .squeezing => 2

/-- The result code of an error (R270). -/
def Err.code : Err → Nat
  | .invalidSpec => 1
  | .illegalOpcode => 2
  | .badOperand => 3
  | .notInitialised => 4
  | .wrongPhase => 5

/-- The 4-bit value of CAUSE (R270). -/
def Cause.code : Cause → BitVec 4
  | .none => 0
  | .err e => BitVec.ofNat 4 e.code

/-- The 8-bit value of LAST (R270). -/
def Last.code : Last → BitVec 8
  | .ok => 0
  | .err e => BitVec.ofNat 8 e.code
  | .locked => 6

/-- STATUS: LAST, PENDLEN, four zeros, CAUSE, five zeros, FAULT, PHASE, from bit 31 down (R34). -/
def statusWord (e : Engine) : Word32 :=
  e.last.code ++ BitVec.ofNat 8 e.pending.length ++ (0 : BitVec 4) ++ e.cause.code ++ (0 : BitVec 5) ++
    BitVec.ofBool e.fault ++ e.phase.code

end Sys2Proof.Machine
end

