-- ==== Sys2Proof/Machine/Padding.lean ====
section
/-! DEFINITION. The pad10*1 rule engine on whole bytes (41_padding.md R170) and its inverse (R175). -/

namespace Sys2Proof.Machine

/-- `Pad(M, R)` for R in 1..199 (R170): 0x81 where one byte of room is left, else 0x01, zeros, 0x80. -/
def pad (M : List Byte) (R : Nat) : List Byte :=
  let q := R - M.length % R
  if q = 1 then M ++ [0x81] else M ++ [0x01] ++ List.replicate (q - 2) 0x00 ++ [0x80]

/-- The backward scan of R175 on reversed bytes: skip 0x00, stop at the padding 0x01. Nothing, where the bytes are no
output of `pad`. -/
def unpadScan : List Byte → Option (List Byte)
  | [] => none
  | b :: bs => if b = 0x00 then unpadScan bs else if b = 0x01 then some bs.reverse else none

/-- `Unpad(P)` (R175). The engine never performs it. Nothing, where `P` does not end as `pad` ends (log 15). -/
def unpad (P : List Byte) : Option (List Byte) :=
  match P.reverse with
  | [] => none
  | t :: rest => if t = 0x81 then some rest.reverse else if t = 0x80 then unpadScan rest else none

end Sys2Proof.Machine
end

