-- ==== Sys2Proof/WellFormed.lean ====
section
/-! DEFINITION. Which commands have an encoding. LEN is 16 bits wide, so one command moves at most 65 535 payload
bytes (00_scope.md R12); every other operand is bounded by its type. -/

namespace Sys2Proof

/-- The most payload bytes one command moves (R12). -/
abbrev maxPayload : Nat := 65535

/-- The command can be written as a command word and its payload (R12, R91). -/
def Instr.wf : Instr → Bool
  | .init _ _ _ => true
  | .absorb data => data.length ≤ maxPayload
  | .digest final => final.length ≤ maxPayload
  | .squeeze => true
  | .fastsqz _ => true
  | .ksxor data => data.length ≤ maxPayload
  | .permute => true
  | .rdlane _ => true
  | .wrlane _ _ => true
  | .dispose => true
  | .stat => true

end Sys2Proof
end

