-- ==== Sys2Proof/Decode.lean ====
section
/-! DEFINITION. The command encoding (30_encoding.md): the little-endian byte helpers (00_scope.md R16), the fields of
the command word (R91, R92), the payload length (R94), a total decoder that rejects by name (R93, R95, R97, R275), and
after it the encoder written from the same tables (R95, R96). -/

namespace Sys2Proof

/-! ### Little-endian bytes (R16) -/

/-- Σ s[k]·2^(8k), on unbounded naturals. -/
def leNat : List Byte → Nat
  | [] => 0
  | b :: bs => b.toNat + 256 * leNat bs

/-- `le32(s)` (R16). -/
def le32 (s : List Byte) : Word32 := BitVec.ofNat 32 (leNat s)

/-- `le64(s)` (R16). -/
def le64 (s : List Byte) : Lane := BitVec.ofNat 64 (leNat s)

/-- The first `n` little-endian bytes of `v`: byte k is `v[8k+7:8k]` (R16). -/
def leBytes {w : Nat} (n : Nat) (v : BitVec w) : List Byte :=
  (List.range n).map fun k => v.extractLsb' (8 * k) 8

/-! ### The command word (R91, R92) -/

/-- OPC, bits 7:0. -/
def opcField (w : Word32) : BitVec 8 := w.extractLsb' 0 8

/-- IDX, bits 12:8. -/
def idxField (w : Word32) : BitVec 5 := w.extractLsb' 8 5

/-- RSV, bits 15:13. -/
def rsvField (w : Word32) : BitVec 3 := w.extractLsb' 13 3

/-- LEN, bits 31:16. -/
def lenField (w : Word32) : BitVec 16 := w.extractLsb' 16 16

/-- The word with the given fields, bit 31 first: `LLLLLLLLLLLLLLLL RRR IIIII OOOOOOOO` (R91). -/
def wordOf (len : BitVec 16) (rsv : BitVec 3) (idx : BitVec 5) (opc : BitVec 8) : Word32 :=
  len ++ rsv ++ idx ++ opc

/-! ### Opcodes (R95) -/

/-- The byte of an assigned opcode (R95). -/
def Opcode.byte : Opcode → BitVec 8
  | .init => 0x01
  | .absorb => 0x02
  | .digest => 0x03
  | .squeeze => 0x04
  | .fastsqz => 0x05
  | .ksxor => 0x06
  | .permute => 0x07
  | .rdlane => 0x08
  | .wrlane => 0x09
  | .dispose => 0x0A
  | .stat => 0x0B

/-- The opcode a byte selects; 0x00 and 0x0C to 0xFF are reserved and select none (R95, R97). -/
def Opcode.ofByte (b : BitVec 8) : Option Opcode :=
  match b.toNat with
  | 0x01 => some .init
  | 0x02 => some .absorb
  | 0x03 => some .digest
  | 0x04 => some .squeeze
  | 0x05 => some .fastsqz
  | 0x06 => some .ksxor
  | 0x07 => some .permute
  | 0x08 => some .rdlane
  | 0x09 => some .wrlane
  | 0x0A => some .dispose
  | 0x0B => some .stat
  | _ => none

/-- Which opcodes bring LEN payload bytes (R94). -/
def Opcode.hasPayload : Opcode → Bool
  | .init => true
  | .absorb => true
  | .digest => true
  | .squeeze => false
  | .fastsqz => false
  | .ksxor => true
  | .permute => false
  | .rdlane => false
  | .wrlane => true
  | .dispose => false
  | .stat => false

/-- `PLEN(word)`: LEN for the five payload opcodes, 0 for every other opcode, assigned or reserved (R94). -/
def plen (w : Word32) : Nat :=
  match Opcode.ofByte (opcField w) with
  | some op => if op.hasPayload then (lenField w).toNat else 0
  | none => 0

/-! ### Decoding -/

/-- Why a word and payload are no command of the table. -/
inductive Reject where
  /-- The payload is not PLEN(word) bytes: a broken duty of the host (R76). -/
  | payloadLength
  /-- OPC is reserved (R274). -/
  | illegalOpcode
  /-- An assigned opcode whose fields break its column of R95 (R275). -/
  | badOperand (op : Opcode)
deriving DecidableEq, Repr

/-- The fields of the word keep the opcode's column of R95, but for the lane index bound, which `decode` tests where it
makes the index: RSV is 0, and IDX and LEN are as the column says (R275). -/
def columnOk (op : Opcode) (w : Word32) : Bool :=
  rsvField w == 0 &&
  match op with
  | .init => idxField w == 0 && lenField w == 12
  | .absorb => idxField w == 0
  | .digest => idxField w == 0
  | .squeeze => idxField w == 0 && lenField w == 0
  | .fastsqz => idxField w == 0
  | .ksxor => idxField w == 0
  | .permute => idxField w == 0 && lenField w == 0
  | .rdlane => lenField w == 0
  | .wrlane => lenField w == 8
  | .dispose => idxField w == 0 && lenField w == 0
  | .stat => idxField w == 0 && lenField w == 0

/-- Operand assembly (R93) of an opcode whose column is kept; a lane index above 24 is a bad operand (R275). -/
def assembleOperands (op : Opcode) (w : Word32) (payload : List Byte) : Except Reject Instr :=
  match op with
  | .init => .ok (.init (le32 (payload.take 4)) (le32 ((payload.drop 4).take 4)) (le32 ((payload.drop 8).take 4)))
  | .absorb => .ok (.absorb payload)
  | .digest => .ok (.digest payload)
  | .squeeze => .ok .squeeze
  | .fastsqz => .ok (.fastsqz (lenField w))
  | .ksxor => .ok (.ksxor payload)
  | .permute => .ok .permute
  | .rdlane => if h : (idxField w).toNat < 25 then .ok (.rdlane ⟨_, h⟩) else .error (.badOperand op)
  | .wrlane => if h : (idxField w).toNat < 25 then .ok (.wrlane ⟨_, h⟩ (le64 (payload.take 8))) else .error (.badOperand op)
  | .dispose => .ok .dispose
  | .stat => .ok .stat

/-- The decoder, total on every word and payload. A broken payload length is found first (R76), then a reserved opcode
(R280 step 2), then a broken column (R280 step 3). -/
def decode (w : Word32) (payload : List Byte) : Except Reject Instr :=
  if payload.length ≠ plen w then .error .payloadLength
  else match Opcode.ofByte (opcField w) with
    | none => .error .illegalOpcode
    | some op => if columnOk op w then assembleOperands op w payload else .error (.badOperand op)

/-- The decoder on the command channel's bytes: the word's four bytes, low byte first (R65), then exactly PLEN payload
bytes (R94). Answers the command and the bytes after it; too few bytes are a broken payload length. -/
def decodeBytes (bs : List Byte) : Except Reject (Instr × List Byte) :=
  let w := le32 (bs.take 4)
  if bs.length < 4 then .error .payloadLength
  else
    match decode w ((bs.drop 4).take (plen w)) with
    | .ok i => .ok (i, (bs.drop 4).drop (plen w))
    | .error e => .error e

/-! ### Encoding (R95, R96) -/

/-- The command word and payload of a command (R96). -/
def encode : Instr → Word32 × List Byte
  | .init r c o => (wordOf 12 0 0 0x01, leBytes 4 r ++ leBytes 4 c ++ leBytes 4 o)
  | .absorb data => (wordOf (BitVec.ofNat 16 data.length) 0 0 0x02, data)
  | .digest final => (wordOf (BitVec.ofNat 16 final.length) 0 0 0x03, final)
  | .squeeze => (wordOf 0 0 0 0x04, [])
  | .fastsqz k => (wordOf k 0 0 0x05, [])
  | .ksxor data => (wordOf (BitVec.ofNat 16 data.length) 0 0 0x06, data)
  | .permute => (wordOf 0 0 0 0x07, [])
  | .rdlane i => (wordOf 0 0 (BitVec.ofNat 5 i.val) 0x08, [])
  | .wrlane i v => (wordOf 8 0 (BitVec.ofNat 5 i.val) 0x09, leBytes 8 v)
  | .dispose => (wordOf 0 0 0 0x0A, [])
  | .stat => (wordOf 0 0 0 0x0B, [])

/-- A command as the bytes of the command channel (R65). -/
def encodeBytes (i : Instr) : List Byte := leBytes 4 (encode i).1 ++ (encode i).2

/-! ### Words of the opcode table -/

/-- The 32-bit command word among the low `nbits` bits of `w`. -/
def tableWord (nbits w : Nat) : Word32 := BitVec.ofNat 32 (w % 2 ^ nbits)

/-- The payload of that command: PLEN bytes, taken from the bits of `w` above bit 31 and below `nbits`, then zeros. -/
def tablePayload (nbits w : Nat) : List Byte :=
  let n := plen (tableWord nbits w)
  let given := min n ((nbits - 32 + 7) / 8)
  (List.range given).map (fun k => BitVec.ofNat 8 ((w % 2 ^ nbits) / 2 ^ (32 + 8 * k))) ++ List.replicate (n - given) 0

/-- What the decoder reads from an opcode-table row's word: its bytes on the command channel, then its payload. -/
def decodeTableWord (nbits w : Nat) : Option Instr :=
  match decodeBytes (leBytes 4 (tableWord nbits w) ++ tablePayload nbits w) with
  | .ok (i, _) => some i
  | .error _ => none

end Sys2Proof
end

