-- ==== Sys2Proof/Machine/Operands.lean ====
section
/-! DEFINITION. How commands read and write the lane file: by lane number (00_scope.md R17), by coordinates (10_state.md
R22) and by state byte (20_memory.md R60); and the quantities R and n derived from the configuration (00_scope.md R10). -/

namespace Sys2Proof.Machine

/-- `A[x,y] = LANE[x + 5y]`, every coordinate taken mod 5 (R22). -/
def laneAt (A : Lanes) (x y : Nat) : Lane := A[x % 5 + 5 * (y % 5)]'(by omega)

/-- `LANE[i]` (R17). -/
def readLane (A : Lanes) (i : Fin 25) : Lane := A[i]

/-- `LANE[i] <- v` (R17). -/
def writeLane (A : Lanes) (i : Fin 25) (v : Lane) : Lanes := A.set i v

/-- The state byte view: `S[k] = LANE[k div 8][8·(k mod 8)+7 : 8·(k mod 8)]`, for k in 0..199 (R60). -/
def stateByte (A : Lanes) (k : Nat) : Byte := (A[k / 8]?.getD 0).extractLsb' (8 * (k % 8)) 8

/-- `S[0], …, S[m-1]`. -/
def stateBytes (A : Lanes) (m : Nat) : List Byte := (List.range m).map (stateByte A)

/-- `S[k] <- v`: the byte's eight bits of its lane are cleared and replaced (R60). -/
def setStateByte (A : Lanes) (k : Nat) (v : Byte) : Lanes :=
  A.setIfInBounds (k / 8)
    ((A[k / 8]?.getD 0 &&& ~~~((0xFF : Lane) <<< (8 * (k % 8)))) ||| (v.setWidth 64 <<< (8 * (k % 8))))

/-- R, the rate in bytes (R10). -/
def Engine.rateBytes (e : Engine) : Nat := e.rateBits.toNat / 8

/-- n, the output block in bytes (R10). -/
def Engine.outBytes (e : Engine) : Nat := e.outBits.toNat / 8

end Sys2Proof.Machine
end

