-- ==== Sys2Proof/Machine/Permutation.lean ====
section
/-! DEFINITION. Keccak-f[1600] (40_permutation.md R130 to R137): the five steps, the two tables, and F. -/

namespace Sys2Proof.Machine

/-- `rotl64(v, s)` for 0 ≤ s < 64 (R15). -/
def rotl64 (v : Lane) (s : Nat) : Lane := if s = 0 then v else (v <<< s) ||| (v >>> (64 - s))

/-- The lanes whose lane at (x,y) is `f x y` (R22). -/
def lanesOf (f : Nat → Nat → Lane) : Lanes := Vector.ofFn fun n => f (n.val % 5) (n.val / 5)

/-- The column parity C[x] (R131). -/
def thetaC (A : Lanes) (x : Nat) : Lane :=
  laneAt A x 0 ^^^ laneAt A x 1 ^^^ laneAt A x 2 ^^^ laneAt A x 3 ^^^ laneAt A x 4

/-- D[x] = C[(x-1) mod 5] ^ rotl64(C[(x+1) mod 5], 1) (R131); x-1 is x+4 mod 5. -/
def thetaD (A : Lanes) (x : Nat) : Lane := thetaC A (x + 4) ^^^ rotl64 (thetaC A (x + 1)) 1

/-- θ (R131). -/
def theta (A : Lanes) : Lanes := lanesOf fun x y => laneAt A x y ^^^ thetaD A x

/-- The ρ offsets by lane index (R132). -/
def rotTable : Vector Nat 25 :=
  #v[0, 1, 62, 28, 27, 36, 44, 6, 55, 20, 3, 10, 43, 25, 39, 41, 45, 15, 21, 8, 18, 2, 61, 56, 14]

/-- ROT[x,y], coordinates mod 5 (R132). -/
def rot (x y : Nat) : Nat := rotTable[x % 5 + 5 * (y % 5)]'(by omega)

/-- ρ (R132). -/
def rho (A : Lanes) : Lanes := lanesOf fun x y => rotl64 (laneAt A x y) (rot x y)

/-- π (R133). -/
def pi (A : Lanes) : Lanes := lanesOf fun x y => laneAt A (x + 3 * y) x

/-- χ (R135). -/
def chi (A : Lanes) : Lanes :=
  lanesOf fun x y => laneAt A x y ^^^ (~~~(laneAt A (x + 1) y) &&& laneAt A (x + 2) y)

/-- The rows of R137's table: row `i` holds RC[i] and RC[i + 12]. -/
def roundConstantRows : Vector (Lane × Lane) 12 :=
  #v[(0x0000000000000001, 0x000000008000808B),
     (0x0000000000008082, 0x800000000000008B),
     (0x800000000000808A, 0x8000000000008089),
     (0x8000000080008000, 0x8000000000008003),
     (0x000000000000808B, 0x8000000000008002),
     (0x0000000080000001, 0x8000000000000080),
     (0x8000000080008081, 0x000000000000800A),
     (0x8000000000008009, 0x800000008000000A),
     (0x000000000000008A, 0x8000000080008081),
     (0x0000000000000088, 0x8000000000008080),
     (0x0000000080008009, 0x0000000080000001),
     (0x000000008000000A, 0x8000000080008008)]

/-- RC[i] (R137). -/
def roundConstant (i : Fin 24) : Lane :=
  let row := roundConstantRows[i.val % 12]
  if i.val < 12 then row.1 else row.2

/-- ι with RC[i]: LANE[0] only (R136). -/
def iota (A : Lanes) (i : Fin 24) : Lanes := A.set 0 (A[0] ^^^ roundConstant i)

/-- One round: θ, ρ, π, χ, ι in that order (R130). -/
def keccakRound (A : Lanes) (i : Fin 24) : Lanes := iota (chi (pi (rho (theta A)))) i

/-- F: rounds 0 to 23 in order (R130). -/
def keccakF (A : Lanes) : Lanes := (List.finRange 24).foldl keccakRound A

/-- The fused ρ and π of R134. -/
def fusedRhoPi (A : Lanes) : Lanes :=
  lanesOf fun x y => rotl64 (laneAt A (x + 3 * y) x) (rot (x + 3 * y) x)

end Sys2Proof.Machine
end

