-- ==== Sys2Proof/Machine/Ops.lean ====
section
/-! DEFINITION. The operations the commands share: the response and the error procedure (60_exceptions.md R281, R282),
the checks before a command's body (R280), and the sponge's internal operations (42_sponge.md R190 to R193). -/

namespace Sys2Proof.Machine

/-! ### Responses and errors -/

/-- The engine `e` with LAST written, and one response composed from the result (R33, R90). -/
def State.respond (s : State) (e : Engine) (last : Last) (data : List Byte) : State :=
  let e' := { e with last := last }
  { s with engine := e', responses := s.responses ++ [⟨statusWord e', data⟩] }

/-- A command's successful end: its engine state, LAST ← OK, its data (R33, R98). -/
def State.complete (s : State) (r : Engine × List Byte) : State := s.respond r.1 .ok r.2

/-- FAULT and CAUSE on an error: written only on the transition of FAULT from 0 to 1 (R281, R31, R32). -/
def Engine.latchFault (e : Engine) (c : Err) : Engine :=
  if e.fault then e else { e with fault := true, cause := .err c }

/-- `raise E`, the engine's exception entry: FAULT and CAUSE on the first fault, LAST ← E, no data, nothing else (R281,
R283). -/
def State.raise (s : State) (c : Err) : State := s.respond (s.engine.latchFault c) (.err c) []

/-- The refusal of a command while FAULT = 1: LAST ← LOCKED, no data, nothing else (R280 step 1, R282). -/
def State.lockOut (s : State) : State := s.respond s.engine .locked []

/-- The way out of the fault state, taken by DISPOSE and by reset: every piece of engine state at its reset value (R210,
R284, R310). -/
def State.clearEngine (s : State) : State := { s with engine := Engine.reset }

/-! ### The checks before a command's body (R280) -/

/-- A configuration legal but for the bound on the output: 0 < r, 0 < c, r + c = 1600, 8 | r, 0 < o, 8 | o, on unbounded
integers (R10, R200). -/
def legalRates (r c o : Nat) : Bool :=
  0 < r && 0 < c && r + c == 1600 && r % 8 == 0 && 0 < o && o % 8 == 0

/-- INIT's whole check: the rates, and o ≤ 8·MAX_OUT_BYTES (R200, R201). -/
def legalSpec (maxOutBytes r c o : Nat) : Bool := legalRates r c o && o ≤ 8 * maxOutBytes

/-- The session registers are in the ranges R26, R29 and R30 give them. It holds in every session (R36); log 5. -/
def Engine.sessionOk (e : Engine) : Bool :=
  legalRates e.rateBits.toNat e.capBits.toNat e.outBits.toNat && e.ksblk.length == e.outBytes && e.ksptr ≤ e.outBytes

/-- A command that needs a session: LOCKED, then NOT_INITIALISED, then the body (R280 steps 1, 4, 7). -/
def rawCommand (body : Engine → Engine × List Byte) (s : State) : Host.Outcome State Fault Refusal :=
  if s.engine.fault then .next s.lockOut
  else if s.engine.phase = .uninit then .next (s.raise .notInitialised)
  else .next (s.complete (body s.engine))

/-- A sponge command of one phase: LOCKED, NOT_INITIALISED, WRONG_PHASE, then the body (R280 steps 1, 4, 5, 7). -/
def spongeCommand (phase : Phase) (body : Engine → Engine × List Byte) (s : State) :
    Host.Outcome State Fault Refusal :=
  if s.engine.fault then .next s.lockOut
  else if s.engine.phase = .uninit then .next (s.raise .notInitialised)
  else if s.engine.phase ≠ phase then .next (s.raise .wrongPhase)
  else if s.engine.sessionOk then .next (s.complete (body s.engine))
  else .fault .brokenSession

/-- A command word that is no command of the table: LOCKED while FAULT = 1, unless its opcode is exempt from the lock,
else the error (R280 steps 1 to 3, R282). -/
def State.failDecode (s : State) (exempt : Bool) (c : Err) : State :=
  if s.engine.fault && !exempt then s.lockOut else s.raise c

/-! ### The sponge's internal operations -/

/-- `XorBlock(blk)`: each eight bytes of the block, read as a little-endian lane, XORed into the matching lane; a short
last lane is zero-padded (R190). -/
def xorBlock (A : Lanes) (blk : List Byte) : Lanes :=
  Vector.ofFn fun j => A[j] ^^^ le64 ((blk.drop (8 * j.val)).take 8)

/-- `AbsorbBlocks(buf)` at rate R: the lanes and the remainder (R191). `fuel` bounds the number of blocks. -/
def absorbLoop (R : Nat) : Nat → Lanes → List Byte → Lanes × List Byte
  | 0, A, buf => (A, buf)
  | fuel + 1, A, buf =>
    if R ≤ buf.length then absorbLoop R fuel (keccakF (xorBlock A (buf.take R))) (buf.drop R) else (A, buf)

/-- `AbsorbBlocks(buf)` (R191): with R ≥ 1 there are at most |buf| whole blocks in buf. -/
def absorbBlocks (R : Nat) (A : Lanes) (buf : List Byte) : Lanes × List Byte := absorbLoop R buf.length A buf

/-- The loop of `Extract(n)` at rate R (R192): one pass of min(R, n − |out|) bytes, F between passes and none after the
last. `fuel` bounds the number of passes. -/
def extractLoop (R n : Nat) : Nat → Lanes → List Byte → Lanes × List Byte
  | 0, A, out => (A, out)
  | fuel + 1, A, out =>
    let out' := out ++ stateBytes A (min R (n - out.length))
    if out'.length = n then (A, out') else extractLoop R n fuel (keccakF A) out'

/-- `Extract(n)` (R192): with R ≥ 1 each pass gives at least one byte, so n passes are enough. -/
def extract (R n : Nat) (A : Lanes) : Lanes × List Byte := extractLoop R n n A []

/-- `SqueezeOp()` (R193). -/
def squeezeOp (R n : Nat) (A : Lanes) : Lanes × List Byte := extract R n (keccakF A)

/-- `k` squeezes with their output discarded (R208). -/
def squeezeTimes (R n : Nat) : Nat → Lanes → Lanes
  | 0, A => A
  | k + 1, A => squeezeTimes R n k (squeezeOp R n A).1

/-- An output block latched as the current keystream block, its cursor at 0 (R204, R206, R241). -/
def Engine.latchBlock (e : Engine) (r : Lanes × List Byte) : Engine :=
  { e with lanes := r.1, ksblk := r.2, ksptr := 0 }

/-- The refill of R241: a squeeze, if the current block is exhausted. -/
def Engine.refill (e : Engine) : Engine :=
  if e.ksptr = e.outBytes then e.latchBlock (squeezeOp e.rateBytes e.outBytes e.lanes) else e

/-- The loop of KSXOR over the payload (R241): the engine after it and the output bytes, in order. -/
def ksxorLoop : List Byte → Engine → Engine × List Byte
  | [], e => (e, [])
  | d :: ds, e =>
    let f := e.refill
    let r := ksxorLoop ds { f with ksptr := f.ksptr + 1 }
    (r.1, (d ^^^ f.ksblk.getD f.ksptr 0) :: r.2)

end Sys2Proof.Machine
end

