-- ==== Sys2Proof/Machine/Keystream.lean ====
section
/-! DEFINITION. The keystream generator's command KSXOR (43_keystream.md R241). -/

namespace Sys2Proof.Machine

/-- KSXOR data (R241). -/
def execKsxor (data : List Byte) (s : State) : Host.Outcome State Fault Refusal :=
  spongeCommand .squeezing (fun e => ksxorLoop data e) s

end Sys2Proof.Machine
end

