-- ==== Sys2Proof/Machine/RawAccess.lean ====
section
/-! DEFINITION. The raw state-access commands PERMUTE, RDLANE and WRLANE (40_permutation.md R150 to R152). -/

namespace Sys2Proof.Machine

/-- PERMUTE (R150). -/
def execPermute (s : State) : Host.Outcome State Fault Refusal :=
  rawCommand (fun e => ({ e with lanes := keccakF e.lanes }, [])) s

/-- RDLANE i (R151). -/
def execRdlane (i : Fin 25) (s : State) : Host.Outcome State Fault Refusal :=
  rawCommand (fun e => (e, leBytes 8 (readLane e.lanes i))) s

/-- WRLANE i, v (R152). -/
def execWrlane (i : Fin 25) (v : Lane) (s : State) : Host.Outcome State Fault Refusal :=
  rawCommand (fun e => ({ e with lanes := writeLane e.lanes i v }, [])) s

end Sys2Proof.Machine
end

