-- ==== Sys2Proof/Machine/Sponge.lean ====
section
/-! DEFINITION. The sponge commands INIT, ABSORB, DIGEST, SQUEEZE, FASTSQZ, DISPOSE and STAT (42_sponge.md R200 to
R212). -/

namespace Sys2Proof.Machine

/-- The start of a session (R200, R312): everything but FAULT, CAUSE and LAST is a function of (r, c, o). -/
def Engine.startSession (e : Engine) (r c o : Word32) : Engine :=
  { e with
    lanes := Vector.replicate 25 0
    pending := []
    rateBits := r.setWidth 11
    capBits := c.setWidth 11
    outBits := o
    ksblk := List.replicate (o.toNat / 8) 0
    ksptr := 0
    phase := .absorbing }

/-- INIT r, c, o (R200): LOCKED, then INVALID_SPEC, then the session starts. -/
def execInit (r c o : Word32) (s : State) : Host.Outcome State Fault Refusal :=
  if s.engine.fault then .next s.lockOut
  else if legalSpec s.maxOutBytes r.toNat c.toNat o.toNat then .next (s.complete (s.engine.startSession r c o, []))
  else .next (s.raise .invalidSpec)

/-- ABSORB's body (R202). -/
def Engine.absorb (e : Engine) (data : List Byte) : Engine :=
  let r := absorbBlocks e.rateBytes e.lanes (e.pending ++ data)
  { e with lanes := r.1, pending := r.2 }

/-- ABSORB data (R202). -/
def execAbsorb (data : List Byte) (s : State) : Host.Outcome State Fault Refusal :=
  spongeCommand .absorbing (fun e => (e.absorb data, [])) s

/-- DIGEST's body (R204): pad, absorb, PENDING ← [], PHASE ← SQUEEZING, extract, latch the block. -/
def Engine.digest (e : Engine) (final : List Byte) : Engine × List Byte :=
  let absorbed := absorbBlocks e.rateBytes e.lanes (pad (e.pending ++ final) e.rateBytes)
  let r := extract e.rateBytes e.outBytes absorbed.1
  ({ e with pending := [], phase := .squeezing }.latchBlock r, r.2)

/-- DIGEST [final] (R204). -/
def execDigest (final : List Byte) (s : State) : Host.Outcome State Fault Refusal :=
  spongeCommand .absorbing (fun e => e.digest final) s

/-- SQUEEZE (R206). -/
def execSqueeze (s : State) : Host.Outcome State Fault Refusal :=
  spongeCommand .squeezing (fun e =>
    let r := squeezeOp e.rateBytes e.outBytes e.lanes
    (e.latchBlock r, r.2)) s

/-- FASTSQZ's body (R208): with k ≥ 1 the current keystream block is exhausted. -/
def Engine.fastSqueeze (e : Engine) (k : Nat) : Engine :=
  { e with
    lanes := squeezeTimes e.rateBytes e.outBytes k e.lanes
    ksptr := if 1 ≤ k then e.outBytes else e.ksptr }

/-- FASTSQZ k (R208). -/
def execFastsqz (k : BitVec 16) (s : State) : Host.Outcome State Fault Refusal :=
  spongeCommand .squeezing (fun e => (e.fastSqueeze k.toNat, [])) s

/-- DISPOSE (R210): never LOCKED; every piece of state to its reset value. -/
def execDispose (s : State) : Host.Outcome State Fault Refusal :=
  .next (s.complete (s.clearEngine.engine, []))

/-- STAT (R212): never LOCKED; LAST ← OK and nothing else. -/
def execStat (s : State) : Host.Outcome State Fault Refusal :=
  .next (s.complete (s.engine, []))

end Sys2Proof.Machine
end

