-- ==== Sys2Proof/Machine/Dispatch.lean ====
section
/-! DEFINITION. One arm per instruction: each calls its meaning. -/

namespace Sys2Proof.Machine

def exec (i : Instr) (s : State) : Host.Outcome State Fault Refusal :=
  match i with
  | .init r c o => Sys2Proof.Machine.execInit r c o s
  | .absorb data => Sys2Proof.Machine.execAbsorb data s
  | .digest final => Sys2Proof.Machine.execDigest final s
  | .squeeze => Sys2Proof.Machine.execSqueeze s
  | .fastsqz k => Sys2Proof.Machine.execFastsqz k s
  | .ksxor data => Sys2Proof.Machine.execKsxor data s
  | .permute => Sys2Proof.Machine.execPermute s
  | .rdlane n => Sys2Proof.Machine.execRdlane n s
  | .wrlane n v => Sys2Proof.Machine.execWrlane n v s
  | .dispose => Sys2Proof.Machine.execDispose s
  | .stat => Sys2Proof.Machine.execStat s

end Sys2Proof.Machine
end

