-- ==== Sys2Proof/Machine/Execute.lean ====
section
/-! DEFINITION. `Execute(word, payload)` of 60_exceptions.md R280, and one host action (20_memory.md R75, R76). -/

namespace Sys2Proof.Machine

/-- DISPOSE and STAT are the opcodes the fault lock does not refuse (R280 step 1, R282). -/
def lockExempt : Opcode → Bool
  | .init => false
  | .absorb => false
  | .digest => false
  | .squeeze => false
  | .fastsqz => false
  | .ksxor => false
  | .permute => false
  | .rdlane => false
  | .wrlane => false
  | .dispose => true
  | .stat => true

/-- `Execute(word, payload)` (R280). A payload that is not PLEN(word) bytes is refused (R76). The words that are no command
are handled here, the lock before the opcode and the opcode before the column; a command checks the lock, the phase and
its operands itself. -/
def execute (w : Word32) (payload : List Byte) (s : State) : Host.Outcome State Fault Refusal :=
  match decode w payload with
  | .ok i => exec i s
  | .error .payloadLength => .refused .payloadLength
  | .error .illegalOpcode => .next (s.failDecode false .illegalOpcode)
  | .error (.badOperand op) => .next (s.failDecode (lockExempt op) .badOperand)

/-- What one host action does to the engine. Reset sets every piece of engine state to its reset value and returns no
response (R310); a broken duty of the host is refused (R76). -/
def perform (a : HostAction) (s : State) : Host.Outcome State Fault Refusal :=
  match a with
  | .command w payload => execute w payload s
  | .reset => .next s.clearEngine
  | .commandBeforeResponse _ _ => .refused .commandBeforeResponse
  | .resetDuringCommand => .refused .resetDuringCommand

/-- The host's oldest action taken and performed; with none, the engine is idle and keeps all state (R293). -/
def takeAction (s : State) : Host.Outcome State Fault Refusal :=
  match s.actions with
  | [] => .next s
  | a :: rest => perform a { s with actions := rest }

/-- The state whose next action is the command of an opcode-table word, with the zero payload bytes PLEN asks for. -/
def State.issueTableWord (s : State) (nbits w : Nat) : State :=
  { s with actions := .command (tableWord nbits w) (tablePayload nbits w) :: s.actions }

/-- The host issues these commands, in order, after what it has already to do (R75). -/
def State.issue (s : State) (is : List Instr) : State :=
  { s with actions := s.actions ++ is.map fun i => .command (encode i).1 (encode i).2 }

/-- The commands of a host program executed one after another, up to the first stop (R37). -/
def execAll : List Instr → State → Host.Outcome State Fault Refusal
  | [], s => .next s
  | i :: is, s =>
    match exec i s with
    | .next t => execAll is t
    | .fault r => .fault r
    | .refused r => .refused r

end Sys2Proof.Machine
end

