-- ==== Sys2Proof/Machine/Step.lean ====
section
/-! DEFINITION. One step of the machine, and the host's way to have a table word run next. -/

namespace Sys2Proof.Machine

/-- One step: the host's oldest action, executed as one state transition (20_memory.md R68, 70_reset_and_hazards.md
R315). -/
def step (s : State) : Host.Outcome State Fault Refusal := takeAction s

/-- `s` with an opcode-table word as the host's next action: commands come from the host (R37, R73), so this is where the
next instruction is taken from. -/
def State.withFetchWord (s : State) (nbits w : Nat) : State := s.issueTableWord nbits w

end Sys2Proof.Machine
end

