-- ==== Sys2Proof/Machine/Pseudo.lean ====
section
/-! DEFINITION. The pseudo-instructions and their exact expansions (30_encoding.md R100), among them the host protocols
KSOPEN and CONFIRM (43_keystream.md R246, R248). They are host programs: lists of commands. -/

namespace Sys2Proof.Machine

/-- NOP (R100). -/
def pseudoNop : List Instr := [.stat]

/-- The consecutive pieces of `m` of at most 65 535 bytes, the last possibly shorter; none for []. `fuel` bounds their
number. -/
def payloadChunks : Nat → List Byte → List (List Byte)
  | 0, _ => []
  | fuel + 1, m => if m.isEmpty then [] else m.take maxPayload :: payloadChunks fuel (m.drop maxPayload)

/-- ABSORBL m (R100): one ABSORB per chunk of 65 535 bytes. -/
def pseudoAbsorbl (m : List Byte) : List Instr := (payloadChunks m.length m).map .absorb

/-- DIGESTL m (R100): the last 65 535 bytes, or all of a shorter m, are the DIGEST's. -/
def pseudoDigestl (m : List Byte) : List Instr :=
  if m.length ≤ maxPayload then [.digest m]
  else pseudoAbsorbl (m.take (m.length - maxPayload)) ++ [.digest (m.drop (m.length - maxPayload))]

/-- FASTSQZL k (R100). -/
def pseudoFastsqzl (k : Nat) : List Instr :=
  List.replicate (k / 65535) (.fastsqz 65535) ++
    (if k % 65535 ≠ 0 then [.fastsqz (BitVec.ofNat 16 (k % 65535))] else [])

/-- HASH r, c, o, m (R100). -/
def pseudoHash (r c o : Word32) (m : List Byte) : List Instr := .init r c o :: pseudoDigestl m

/-- KEYSTREAM L (R100). -/
def pseudoKeystream (L : Nat) : List Instr := [.ksxor (List.replicate L 0)]

/-- KSOPEN r, c, o, P, K (R100, R246). -/
def pseudoKsopen (r c o : Word32) (P K : List Byte) : List Instr :=
  .init r c o :: (pseudoAbsorbl P ++ pseudoDigestl K)

/-- CONFIRM r, c, o, P, N for N ≥ 1 (R100, R248). -/
def pseudoConfirm (r c o : Word32) (P : List Byte) (N : Nat) : List Instr :=
  .init r c o :: (pseudoAbsorbl P ++ [.digest []] ++ (if N > 2 then pseudoFastsqzl (N - 2) else []) ++
    (if N > 1 then [.squeeze] else []))

/-- LDSTATE v0, …, v24 (R100). -/
def pseudoLdstate (v : Lanes) : List Instr := (List.finRange 25).map fun i => .wrlane i v[i]

/-- STSTATE (R100). -/
def pseudoStstate : List Instr := (List.finRange 25).map .rdlane

end Sys2Proof.Machine
end

