-- ==== Sys2Proof/Machine/Reference.lean ====
section
/-! DEFINITION. The results the spec's laws name, written from those laws and not from the commands: `KeccakSponge(M)`
(42_sponge.md R213) and the keystream of a session (43_keystream.md R240). No command calls them. -/

namespace Sys2Proof.Machine

/-- ⌈n/R⌉, the passes of one extraction (R193, R325). -/
def passes (R n : Nat) : Nat := (n + R - 1) / R

/-- The whole R-byte blocks of `P`, in order. -/
def rateBlocks (R : Nat) (P : List Byte) : List (List Byte) :=
  (List.range (P.length / R)).map fun i => (P.drop (i * R)).take R

/-- The state after a sequence of rate blocks, F after each (R213). -/
def absorbedBlocks (A : Lanes) (blks : List (List Byte)) : Lanes :=
  blks.foldl (fun B blk => keccakF (xorBlock B blk)) A

/-- n output bytes: R bytes of the state, F, R bytes, … (R213). -/
def spongeOutput (R n : Nat) (A : Lanes) : List Byte :=
  ((List.range (passes R n)).flatMap fun j => stateBytes (keccakF^[j] A) R).take n

/-- The zero state with every block of Pad(M, R) absorbed (R213). -/
def spongeState (R : Nat) (M : List Byte) : Lanes :=
  absorbedBlocks (Vector.replicate 25 0) (rateBlocks R (pad M R))

/-- `KeccakSponge(M)` with rate R and output n (R213). -/
def keccakSponge (R n : Nat) (M : List Byte) : List Byte := spongeOutput R n (spongeState R M)

/-- The lanes after `j` squeezes (R207). -/
def squeezedLanes (R n j : Nat) (A : Lanes) : Lanes := (fun B => (squeezeOp R n B).1)^[j] A

/-- The block the (j+1)-th squeeze from lanes `A` outputs (R240). -/
def squeezedBlock (R n j : Nat) (A : Lanes) : List Byte := (squeezeOp R n (squeezedLanes R n j A)).2

/-- How many refill squeezes a KSXOR of `len` bytes performs (R243, R325): the exhausted block is refilled only when a
byte is needed. -/
def refills (e : Engine) (len : Nat) : Nat := if len = 0 then 0 else (e.ksptr + len - 1) / e.outBytes

/-- The work of a successful command in evaluations of F, as the table of R325 lists it. -/
def evaluationsOfF (e : Engine) (i : Instr) : Nat :=
  let R := e.rateBytes
  let n := e.outBytes
  match i with
  | .init _ _ _ => 0
  | .absorb d => (e.pending.length + d.length) / R
  | .digest d => (e.pending.length + d.length) / R + 1 + passes R n - 1
  | .squeeze => passes R n
  | .fastsqz k => k.toNat * passes R n
  | .ksxor d => refills e d.length * passes R n
  | .permute => 1
  | .rdlane _ => 0
  | .wrlane _ _ => 0
  | .dispose => 0
  | .stat => 0

/-- The i-th keystream byte not yet used: the bytes of KSBLK from KSPTR on, then those of each next squeeze (R240, R241). -/
def keystreamByte (e : Engine) (i : Nat) : Byte :=
  let p := e.ksptr + i
  if p < e.outBytes then e.ksblk.getD p 0
  else (squeezedBlock e.rateBytes e.outBytes (p / e.outBytes - 1) e.lanes).getD (p % e.outBytes) 0

end Sys2Proof.Machine
end

