-- ==== Sys2Proof/Safety.lean ====
section
/-! DEFINITION. The terms claims are made in: the engine's invariants (10_state.md R36), what a command's answer looks
like, the error procedure and the check order written from the raw fields of a word (60_exceptions.md R275, R280, R281). -/

namespace Sys2Proof.Safety

open Sys2Proof.Machine

/-- The invariants I1 to I6 of R36, and MAX_OUT_BYTES ≥ 1 (R11). I7 is about a run and stands in the claims. -/
structure Inv (s : State) : Prop where
  /-- R11. -/
  maxOut_pos : 1 ≤ s.maxOutBytes
  /-- I1. -/
  uninit : s.engine.phase = .uninit →
    s.engine.lanes = Vector.replicate 25 0 ∧ s.engine.pending = [] ∧ s.engine.rateBits = 0 ∧ s.engine.capBits = 0 ∧
      s.engine.outBits = 0 ∧ s.engine.ksblk = [] ∧ s.engine.ksptr = 0
  /-- I2. -/
  config : s.engine.phase ≠ .uninit →
    legalSpec s.maxOutBytes s.engine.rateBits.toNat s.engine.capBits.toNat s.engine.outBits.toNat = true
  /-- I3. -/
  pending_lt : s.engine.phase = .absorbing → s.engine.pending.length < s.engine.rateBytes
  /-- I3. -/
  pending_nil : s.engine.phase ≠ .absorbing → s.engine.pending = []
  /-- I4. -/
  ksblk_length : s.engine.ksblk.length = s.engine.outBytes
  /-- I4. -/
  ksptr_le : s.engine.ksptr ≤ s.engine.outBytes
  /-- I5. -/
  phase_ne_three : s.engine.phase.code ≠ 3
  /-- I6. -/
  cause_none : s.engine.fault = false → s.engine.cause = .none

/-- The state with its engine replaced and one response more: the STATUS word of that engine, and data (R90). -/
def answered (s : State) (e : Engine) (data : List Byte) : State :=
  { s with engine := e, responses := s.responses ++ [⟨statusWord e, data⟩] }

/-- What `raise E` leaves (R281): FAULT and CAUSE as the first fault sets them, LAST = E, nothing else, no data. -/
def errorState (s : State) (c : Err) : State :=
  answered s
    { s.engine with fault := true, cause := if s.engine.fault then s.engine.cause else .err c, last := .err c } []

/-- What a refusal with LOCKED leaves (R280 step 1): LAST = LOCKED, nothing else, no data. -/
def lockedState (s : State) : State := answered s { s.engine with last := .locked } []

/-- The columns of R95 that a word's fields can break, as R275 lists them. -/
def brokenColumn (opc idx rsv len : Nat) : Bool :=
  rsv ≠ 0
    || (opc == 0x01 && (idx ≠ 0 || len ≠ 12))
    || ((opc == 0x02 || opc == 0x03 || opc == 0x05 || opc == 0x06) && idx ≠ 0)
    || ((opc == 0x04 || opc == 0x07 || opc == 0x0A || opc == 0x0B) && (idx ≠ 0 || len ≠ 0))
    || (opc == 0x08 && (idx > 24 || len ≠ 0))
    || (opc == 0x09 && (idx > 24 || len ≠ 8))

/-- The first failing check of R280, steps 1 to 6 in order, read from the fields as numbers: the LAST it leads to, or
nothing where the body runs. -/
def firstFailure (s : State) (w : Word32) (payload : List Byte) : Option Last :=
  let opc := w.toNat % 256
  let idx := w.toNat / 256 % 32
  let rsv := w.toNat / 8192 % 8
  let len := w.toNat / 65536
  let r := leNat (payload.take 4)
  let c := leNat ((payload.drop 4).take 4)
  let o := leNat ((payload.drop 8).take 4)
  if s.engine.fault ∧ opc ≠ 0x0A ∧ opc ≠ 0x0B then some .locked
  else if opc = 0 ∨ 0x0C ≤ opc then some (.err .illegalOpcode)
  else if brokenColumn opc idx rsv len then some (.err .badOperand)
  else if s.engine.phase = .uninit ∧ 0x02 ≤ opc ∧ opc ≤ 0x09 then some (.err .notInitialised)
  else if ((opc = 0x02 ∨ opc = 0x03) ∧ s.engine.phase ≠ .absorbing) ∨
      ((opc = 0x04 ∨ opc = 0x05 ∨ opc = 0x06) ∧ s.engine.phase ≠ .squeezing) then some (.err .wrongPhase)
  else if opc = 0x01 ∧ ¬(0 < r ∧ 0 < c ∧ r + c = 1600 ∧ r % 8 = 0 ∧ 0 < o ∧ o % 8 = 0 ∧ o ≤ 8 * s.maxOutBytes) then
    some (.err .invalidSpec)
  else none

/-- The engine is in a session of one phase, not locked, with MAX_OUT_BYTES and every register as R36 says. -/
structure Live (s : State) (p : Phase) : Prop where
  inv : Inv s
  unlocked : s.engine.fault = false
  phase : s.engine.phase = p

/-- The data of the newest response. -/
def lastData (s : State) : Option (List Byte) := s.responses.getLast?.map (·.data)

/-- The data of the responses from index `k` on, joined in order. -/
def dataFrom (k : Nat) (s : State) : List Byte := ((s.responses.drop k).map (·.data)).flatten

/-- The data bytes a command brings (R93): those of ABSORB, DIGEST and KSXOR. -/
def dataOf : Instr → List Byte
  | .init _ _ _ => []
  | .absorb data => data
  | .digest final => final
  | .squeeze => []
  | .fastsqz _ => []
  | .ksxor data => data
  | .permute => []
  | .rdlane _ => []
  | .wrlane _ _ => []
  | .dispose => []
  | .stat => []

/-- The response data of the KSXORs among the commands `is`, whose responses are `rs`, joined in order. -/
def ksxorData (is : List Instr) (rs : List Response) : List Byte :=
  (is.zip rs).flatMap fun p => if p.1.opcode = .ksxor then p.2.data else []

end Sys2Proof.Safety
end

