-- ==== Sys2Proof/Certificates/Slice0/Obligations.lean ====
section
/-! DEFINITION. The statements for the provers. -/

open Sys2Proof Sys2Proof.Machine Sys2Proof.Safety

/-! ### Encoding -/

/-- Every command with an encoding decodes to itself, with every operand at every value (30_encoding.md R91 to R96). -/
def Obligations.DecodeOfEncodeIsIdentity : Prop :=
  ∀ i : Instr, i.wf = true → decode (encode i).1 (encode i).2 = .ok i

/-- A word and payload that decode are the encoding of what they decode to: each command has one encoding. -/
def Obligations.EncodeOfDecodeIsIdentity : Prop :=
  ∀ (w : Word32) (p : List Byte) (i : Instr), decode w p = .ok i → i.wf = true ∧ encode i = (w, p)

/-- On the command channel, a command's bytes are read back whatever follows them (R65, R94). -/
def Obligations.ChannelBytesDecodeWithRest : Prop :=
  ∀ (i : Instr) (rest : List Byte), i.wf = true → decodeBytes (encodeBytes i ++ rest) = .ok (i, rest)

/-- The encoded words of R96. -/
def Obligations.EncodedWordsAsListed : Prop :=
  (∀ r c o, (encode (.init r c o)).1 = 0x000C0001) ∧
  (∀ d : List Byte, d.length ≤ 65535 →
    (encode (.absorb d)).1.toNat = (d.length <<< 16) ||| 0x02 ∧
    (encode (.digest d)).1.toNat = (d.length <<< 16) ||| 0x03 ∧
    (encode (.ksxor d)).1.toNat = (d.length <<< 16) ||| 0x06) ∧
  (encode .squeeze).1 = 0x00000004 ∧
  (∀ k : BitVec 16, (encode (.fastsqz k)).1.toNat = (k.toNat <<< 16) ||| 0x05) ∧
  (encode .permute).1 = 0x00000007 ∧
  (∀ i : Fin 25, (encode (.rdlane i)).1.toNat = (i.val <<< 8) ||| 0x08) ∧
  (∀ (i : Fin 25) (v : Lane), (encode (.wrlane i v)).1.toNat = 0x00080000 ||| (i.val <<< 8) ||| 0x09) ∧
  (encode .dispose).1 = 0x0000000A ∧
  (encode .stat).1 = 0x0000000B

/-- A few words of 95_test_vectors.md V10 decode to the commands they stand for. -/
def Obligations.SampleWordsDecode : Prop :=
  decode 0x000C0001 [0x00, 0x04, 0, 0, 0x40, 0x02, 0, 0, 0x00, 0x01, 0, 0] = .ok (.init 1024 576 256) ∧
  decode 0x00000003 [] = .ok (.digest []) ∧
  decode 0x03E60005 [] = .ok (.fastsqz 998) ∧
  decode 0x00001808 [] = .ok (.rdlane 24) ∧
  decode 0x00080309 [0xEF, 0xCD, 0xAB, 0x89, 0x67, 0x45, 0x23, 0x01] = .ok (.wrlane 3 0x0123456789ABCDEF) ∧
  decode 0x0000E004 [] = .error (.badOperand .squeeze) ∧
  decode 0xFFFF00FF [] = .error .illegalOpcode

/-- PLEN depends on OPC and LEN only, and the payload is consumed with the word, also when the command then raises an error
(R94). -/
def Obligations.PayloadLengthRule : Prop :=
  (∀ w : Word32, plen w =
    if w.toNat % 256 = 0x01 ∨ w.toNat % 256 = 0x02 ∨ w.toNat % 256 = 0x03 ∨ w.toNat % 256 = 0x06 ∨ w.toNat % 256 = 0x09
    then w.toNat / 65536 else 0) ∧
  ∀ (s : State) (w : Word32) (p : List Byte) (rest : List HostAction), Inv s → s.actions = .command w p :: rest →
    p.length = plen w → ∃ t, step s = .next t ∧ t.actions = rest

/-- A reserved opcode has no payload; its word raises ILLEGAL_OPCODE whatever its other fields hold (R274), unless the
fault lock refuses it first (R280). -/
def Obligations.ReservedOpcodeRaisesIllegal : Prop :=
  ∀ (s : State) (w : Word32), (w.toNat % 256 = 0 ∨ 0x0C ≤ w.toNat % 256) →
    plen w = 0 ∧
    (s.engine.fault = false → execute w [] s = .next (errorState s .illegalOpcode)) ∧
    (s.engine.fault = true → execute w [] s = .next (lockedState s))

/-- An assigned opcode raises BAD_OPERAND exactly where its fields break its column, its payload consumed and discarded
(R275). -/
def Obligations.BrokenColumnRaisesBadOperand : Prop :=
  ∀ (s : State) (w : Word32) (p : List Byte), s.engine.fault = false → p.length = plen w →
    1 ≤ w.toNat % 256 → w.toNat % 256 ≤ 0x0B →
    (brokenColumn (w.toNat % 256) (w.toNat / 256 % 32) (w.toNat / 8192 % 8) (w.toNat / 65536) = true →
      execute w p s = .next (errorState s .badOperand)) ∧
    (brokenColumn (w.toNat % 256) (w.toNat / 256 % 32) (w.toNat / 8192 % 8) (w.toNat / 65536) = false →
      ∃ i, decode w p = .ok i ∧ i.opcode.byte.toNat = w.toNat % 256 ∧ execute w p s = exec i s)

/-! ### Running -/

/-- When the host's next action is a command that decodes, the step is the meaning of that command on the state without
that action. -/
def Obligations.StepRunsDecodedCommand : Prop :=
  ∀ (s : State) (w : Word32) (p : List Byte) (rest : List HostAction) (i : Instr),
    s.actions = .command w p :: rest → decode w p = .ok i → step s = exec i { s with actions := rest }

/-- With nothing to do the engine keeps all state (R293). -/
def Obligations.IdleEngineKeepsState : Prop :=
  ∀ s : State, s.actions = [] → step s = .next s

/-- The steps the model refuses are exactly those where the host breaks a duty (R76). -/
def Obligations.RefusedExactlyOnHostViolation : Prop :=
  ∀ (s : State) (a : HostAction) (rest : List HostAction), s.actions = a :: rest →
    ((∃ r, step s = .refused r) ↔
      (∃ w p, a = .command w p ∧ p.length ≠ plen w) ∨ (∃ w p, a = .commandBeforeResponse w p) ∨ a = .resetDuringCommand)

/-- Every command the host issues with its PLEN payload bytes completes with exactly one response, whose STATUS is of the
state after it (R71, R90, R324). -/
def Obligations.EveryCommandCompletesWithOneResponse : Prop :=
  ∀ (s : State) (w : Word32) (p : List Byte) (rest : List HostAction), Inv s → s.actions = .command w p :: rest →
    p.length = plen w →
    ∃ t data, step s = .next t ∧ t.actions = rest ∧ t.responses = s.responses ++ [⟨statusWord t.engine, data⟩]

/-- A step faults only in a state that breaks the invariants; no reachable state does. -/
def Obligations.FaultOnlyOutsideInvariant : Prop :=
  ∀ (s : State) (r : Fault), step s = .fault r → ¬ Inv s

/-- Responses are copies: a step changes no response already returned, and adds at most one (R316, R71). -/
def Obligations.ReturnedResponsesNeverChange : Prop :=
  ∀ s t : State, step s = .next t → ∃ new, t.responses = s.responses ++ new ∧ new.length ≤ 1

/-- The length of a response's data (R98). -/
def Obligations.ResponseDataLengths : Prop :=
  ∀ (s t : State) (w : Word32) (p : List Byte), Inv s → execute w p s = .next t →
    ∃ data, t.responses = s.responses ++ [⟨statusWord t.engine, data⟩] ∧
      (t.engine.last ≠ .ok → data = []) ∧
      (t.engine.last = .ok → ∃ i, decode w p = .ok i ∧
        data.length = match i with
          | .digest _ => s.engine.outBytes
          | .squeeze => s.engine.outBytes
          | .ksxor d => d.length
          | .rdlane _ => 8
          | .init _ _ _ => 0
          | .absorb _ => 0
          | .fastsqz _ => 0
          | .permute => 0
          | .wrlane _ _ => 0
          | .dispose => 0
          | .stat => 0)

/-! ### Invariants and reset -/

/-- The state after reset, with any legal MAX_OUT_BYTES, has the invariants (R36, R310). -/
def Obligations.ResetStateHasInvariant : Prop := ∀ m : Nat, 1 ≤ m → Inv (State.resetWith m)

/-- Every step keeps the invariants I1 to I6 (R36). -/
def Obligations.StepKeepsInvariant : Prop := ∀ s t : State, Inv s → step s = .next t → Inv t

/-- Reset sets every piece of engine state to its reset value, from any state, and returns no response (R310). -/
def Obligations.ResetSetsEveryPieceOfState : Prop :=
  (∀ (s : State) (rest : List HostAction), s.actions = .reset :: rest →
    ∃ t, step s = .next t ∧ t.responses = s.responses ∧
      (∀ i : Fin 25, t.engine.lanes[i] = 0) ∧ t.engine.pending = [] ∧
      t.engine.rateBits = 0 ∧ t.engine.capBits = 0 ∧ t.engine.outBits = 0 ∧ t.engine.phase = .uninit ∧
      t.engine.ksblk = [] ∧ t.engine.ksptr = 0 ∧ t.engine.fault = false ∧ t.engine.cause = .none ∧
      t.engine.last = .ok ∧ statusWord t.engine = 0 ∧ t.engine = State.reset.engine)

/-- I7 of R36: after INIT and any ABSORBs, the bytes given are the blocks absorbed, in order, then PENDING. -/
def Obligations.AbsorbedBlocksThenPending : Prop :=
  ∀ (s : State) (r c o : Word32) (ps : List (List Byte)), Inv s → s.engine.fault = false →
    legalSpec s.maxOutBytes r.toNat c.toNat o.toNat = true →
    ∃ t, execAll (.init r c o :: ps.map .absorb) s = .next t ∧
      let R := r.toNat / 8
      let M := ps.flatten
      t.engine.pending = M.drop (R * (M.length / R)) ∧ t.engine.pending.length < R ∧
      t.engine.lanes = absorbedBlocks (Vector.replicate 25 0) (rateBlocks R M) ∧
      (rateBlocks R M).flatten ++ t.engine.pending = M

/-! ### Errors -/

/-- The result codes of R270: CAUSE is 0 to 5, LAST is 0 to 6, each with its name. -/
def Obligations.ResultCodesAsListed : Prop :=
  Last.ok.code = 0 ∧ Cause.none.code = 0 ∧
  (∀ e : Err, (Cause.err e).code.toNat = e.code ∧ (Last.err e).code.toNat = e.code) ∧
  Err.invalidSpec.code = 1 ∧ Err.illegalOpcode.code = 2 ∧ Err.badOperand.code = 3 ∧ Err.notInitialised.code = 4 ∧
  Err.wrongPhase.code = 5 ∧ Last.locked.code = 6 ∧
  (∀ c : Cause, c.code.toNat ≤ 5) ∧ (∀ l : Last, l.code.toNat ≤ 6)

/-- The STATUS word's fields, its reserved bits, its value after reset, and that it begins every response (R34). -/
def Obligations.StatusWordLayout : Prop :=
  (∀ e : Engine, e.pending.length ≤ 198 →
    (statusWord e).extractLsb' 0 2 = e.phase.code ∧
    (statusWord e).extractLsb' 2 1 = BitVec.ofBool e.fault ∧
    (statusWord e).extractLsb' 3 5 = 0 ∧
    (statusWord e).extractLsb' 8 4 = e.cause.code ∧
    (statusWord e).extractLsb' 12 4 = 0 ∧
    ((statusWord e).extractLsb' 16 8).toNat = e.pending.length ∧
    (statusWord e).extractLsb' 24 8 = e.last.code) ∧
  (∀ s : State, Inv s → s.engine.pending.length ≤ 198) ∧
  statusWord Engine.reset = 0 ∧
  ∀ (s t : State) (w : Word32) (p : List Byte), execute w p s = .next t →
    ∃ data, t.responses = s.responses ++ [⟨statusWord t.engine, data⟩]

/-- The error procedure `raise E` (R281). -/
def Obligations.RaiseLatchesFirstFaultOnly : Prop :=
  ∀ (s : State) (c : Err),
    (s.engine.fault = false →
      s.raise c = answered s { s.engine with fault := true, cause := .err c, last := .err c } []) ∧
    (s.engine.fault = true → s.raise c = answered s { s.engine with last := .err c } [])

/-- The six checks of R280 in their order, read from the raw fields of the word: the first that fails decides the result,
and the body runs only if all pass. -/
def Obligations.ChecksDecideInOrder : Prop :=
  ∀ (s : State) (w : Word32) (p : List Byte), Inv s → p.length = plen w →
    (firstFailure s w p = some .locked → execute w p s = .next (lockedState s)) ∧
    (∀ c, firstFailure s w p = some (.err c) → execute w p s = .next (errorState s c)) ∧
    (firstFailure s w p = none →
      ∃ (e : Engine) (data : List Byte), execute w p s = .next (answered s { e with last := .ok } data))

/-- A command that does not end with OK changes FAULT, CAUSE and LAST only, and returns no data (R283, R68). -/
def Obligations.FailedCommandIsPrecise : Prop :=
  ∀ (s t : State) (w : Word32) (p : List Byte), execute w p s = .next t → t.engine.last ≠ .ok →
    t = answered s { s.engine with fault := t.engine.fault, cause := t.engine.cause, last := t.engine.last } []

/-- While FAULT = 1 every command but DISPOSE and STAT is refused with LOCKED, reserved opcodes and broken columns too
(R277). -/
def Obligations.LockedRefusesAllButDisposeAndStat : Prop :=
  ∀ s : State, s.engine.fault = true →
    (∀ (w : Word32) (p : List Byte), p.length = plen w → w.toNat % 256 ≠ 0x0A → w.toNat % 256 ≠ 0x0B →
      execute w p s = .next (lockedState s)) ∧
    (∀ i : Instr, i ≠ .dispose → i ≠ .stat → exec i s = .next (lockedState s)) ∧
    (∃ t, exec .dispose s = .next t ∧ t.engine.last = .ok) ∧
    (∃ t, exec .stat s = .next t ∧ t.engine.last = .ok ∧ t.engine.cause = s.engine.cause)

/-- Only DISPOSE and reset clear FAULT; until then CAUSE keeps the first cause (R31, R32, R284). -/
def Obligations.FaultClearedOnlyByDisposeOrReset : Prop :=
  ∀ s t : State, s.engine.fault = true → step s = .next t →
    t.engine = { s.engine with last := t.engine.last } ∨
    (t.engine = Engine.reset ∧
      ((∃ rest, s.actions = .reset :: rest) ∨
       (∃ w p rest, s.actions = .command w p :: rest ∧ decode w p = .ok .dispose)))

/-- In UNINIT the eight commands that need a session raise NOT_INITIALISED, and INIT, DISPOSE and STAT never do (R273). -/
def Obligations.SessionCommandsNeedInit : Prop :=
  ∀ s : State, s.engine.phase = .uninit → s.engine.fault = false →
    (∀ d, exec (.absorb d) s = .next (errorState s .notInitialised)) ∧
    (∀ d, exec (.digest d) s = .next (errorState s .notInitialised)) ∧
    exec .squeeze s = .next (errorState s .notInitialised) ∧
    (∀ k, exec (.fastsqz k) s = .next (errorState s .notInitialised)) ∧
    (∀ d, exec (.ksxor d) s = .next (errorState s .notInitialised)) ∧
    exec .permute s = .next (errorState s .notInitialised) ∧
    (∀ i, exec (.rdlane i) s = .next (errorState s .notInitialised)) ∧
    (∀ i v, exec (.wrlane i v) s = .next (errorState s .notInitialised)) ∧
    (∀ r c o t, exec (.init r c o) s = .next t → t.engine.last ≠ .err .notInitialised) ∧
    (∀ t, exec .dispose s = .next t → t.engine.last ≠ .err .notInitialised) ∧
    (∀ t, exec .stat s = .next t → t.engine.last ≠ .err .notInitialised)

/-- ABSORB and DIGEST in SQUEEZING, and SQUEEZE, FASTSQZ and KSXOR in ABSORBING, raise WRONG_PHASE (R276). -/
def Obligations.WrongPhaseRaised : Prop :=
  ∀ s : State, s.engine.fault = false →
    (s.engine.phase = .squeezing →
      (∀ d, exec (.absorb d) s = .next (errorState s .wrongPhase)) ∧
      (∀ d, exec (.digest d) s = .next (errorState s .wrongPhase))) ∧
    (s.engine.phase = .absorbing →
      exec .squeeze s = .next (errorState s .wrongPhase) ∧
      (∀ k, exec (.fastsqz k) s = .next (errorState s .wrongPhase)) ∧
      (∀ d, exec (.ksxor d) s = .next (errorState s .wrongPhase)))

/-- PHASE changes only as the table of R28 says, and never on an error. -/
def Obligations.PhaseChangesOnlyAsTabled : Prop :=
  ∀ (i : Instr) (s t : State), exec i s = .next t →
    (t.engine.last ≠ .ok → t.engine.phase = s.engine.phase) ∧
    (t.engine.last = .ok →
      match i with
      | .init _ _ _ => t.engine.phase = .absorbing
      | .absorb _ => s.engine.phase = .absorbing ∧ t.engine.phase = .absorbing
      | .digest _ => s.engine.phase = .absorbing ∧ t.engine.phase = .squeezing
      | .squeeze => s.engine.phase = .squeezing ∧ t.engine.phase = .squeezing
      | .fastsqz _ => s.engine.phase = .squeezing ∧ t.engine.phase = .squeezing
      | .ksxor _ => s.engine.phase = .squeezing ∧ t.engine.phase = .squeezing
      | .permute => s.engine.phase ≠ .uninit ∧ t.engine.phase = s.engine.phase
      | .rdlane _ => s.engine.phase ≠ .uninit ∧ t.engine.phase = s.engine.phase
      | .wrlane _ _ => s.engine.phase ≠ .uninit ∧ t.engine.phase = s.engine.phase
      | .dispose => t.engine.phase = .uninit
      | .stat => t.engine.phase = s.engine.phase)

/-- The frame of every command: each register changes only in the commands 10_state.md lists as its writers (R21, R25, R26,
R28, R29, R30, R31, R32), and no command touches the host's actions or MAX_OUT_BYTES. -/
def Obligations.RegistersWrittenOnlyByTheirWriters : Prop :=
  ∀ (i : Instr) (s t : State), exec i s = .next t →
    t.maxOutBytes = s.maxOutBytes ∧ t.actions = s.actions ∧
    (t.engine.lanes ≠ s.engine.lanes → i.opcode ∈
      [.init, .absorb, .digest, .squeeze, .fastsqz, .ksxor, .permute, .wrlane, .dispose]) ∧
    (t.engine.pending ≠ s.engine.pending → i.opcode ∈ [.init, .absorb, .digest, .dispose]) ∧
    (t.engine.rateBits ≠ s.engine.rateBits → i.opcode ∈ [.init, .dispose]) ∧
    (t.engine.capBits ≠ s.engine.capBits → i.opcode ∈ [.init, .dispose]) ∧
    (t.engine.outBits ≠ s.engine.outBits → i.opcode ∈ [.init, .dispose]) ∧
    (t.engine.phase ≠ s.engine.phase → i.opcode ∈ [.init, .digest, .dispose]) ∧
    (t.engine.ksblk ≠ s.engine.ksblk → i.opcode ∈ [.init, .digest, .squeeze, .ksxor, .dispose]) ∧
    (t.engine.ksptr ≠ s.engine.ksptr → i.opcode ∈ [.init, .digest, .squeeze, .fastsqz, .ksxor, .dispose]) ∧
    (t.engine.fault ≠ s.engine.fault ∨ t.engine.cause ≠ s.engine.cause →
      i.opcode = .dispose ∨ (s.engine.fault = false ∧ t.engine.fault = true ∧
        ∃ c, t.engine.cause = .err c ∧ t.engine.last = .err c))

/-! ### The permutation -/

/-- θ, ρ, π, χ and ι by coordinates (R131, R132, R133, R135, R136). -/
def Obligations.StepMappingsByCoordinates : Prop :=
  ∀ (A : Lanes) (x y : Nat), x < 5 → y < 5 →
    let C := fun k => laneAt A k 0 ^^^ laneAt A k 1 ^^^ laneAt A k 2 ^^^ laneAt A k 3 ^^^ laneAt A k 4
    laneAt (theta A) x y = laneAt A x y ^^^ (C ((x + 4) % 5) ^^^ (C ((x + 1) % 5)).rotateLeft 1) ∧
    laneAt (rho A) x y = (laneAt A x y).rotateLeft (rot x y) ∧
    laneAt (pi A) x y = laneAt A ((x + 3 * y) % 5) x ∧
    laneAt (chi A) x y = laneAt A x y ^^^ (~~~(laneAt A ((x + 1) % 5) y) &&& laneAt A ((x + 2) % 5) y) ∧
    ∀ i : Fin 24, laneAt (iota A i) x y =
      if x = 0 ∧ y = 0 then laneAt A 0 0 ^^^ roundConstant i else laneAt A x y

/-- The two tables are the ones their derivations give: the walk of R132, and the LFSR of R137. -/
def Obligations.TablesFollowTheirDerivations : Prop :=
  (rot 0 0 = 0 ∧ ∀ t : Fin 24,
    let p := (fun q : Nat × Nat => (q.2, (2 * q.1 + 3 * q.2) % 5))^[t.val] (1, 0)
    rot p.1 p.2 = ((t.val + 1) * (t.val + 2) / 2) % 64) ∧
  ∀ (i : Fin 24) (b : Fin 64),
    (roundConstant i).getLsbD b.val =
      (List.range 7).any fun j =>
        b.val == 2 ^ j - 1 &&
          (((fun v : Nat => if v < 128 then 2 * v else (2 * v) ^^^ 0x171)^[(j + 7 * i.val) % 255] 1) % 2 == 1)

/-- π moves the lane at (x,y) to (y, 2x+3y), which is the source table of R133. -/
def Obligations.PiMovesLanes : Prop :=
  ∀ A : Lanes,
    (∀ x y : Nat, laneAt (pi A) y (2 * x + 3 * y) = laneAt A x y) ∧
    (∀ n : Fin 25, (pi A)[n] = laneAt A
      ((#v[0, 6, 12, 18, 24, 3, 9, 10, 16, 22, 1, 7, 13, 19, 20, 4, 5, 11, 17, 23, 2, 8, 14, 15, 21] : Vector Nat 25)[n] % 5)
      ((#v[0, 6, 12, 18, 24, 3, 9, 10, 16, 22, 1, 7, 13, 19, 20, 4, 5, 11, 17, 23, 2, 8, 14, 15, 21] : Vector Nat 25)[n] / 5))

/-- The fused ρ and π equals π after ρ (R134). -/
def Obligations.FusedRhoPiEqualsTwoPasses : Prop := ∀ A : Lanes, fusedRhoPi A = pi (rho A)

/-- F is a permutation of the 2^1600 states, and no involution (R138). -/
def Obligations.KeccakFIsAPermutation : Prop :=
  Function.Bijective keccakF ∧ keccakF (keccakF (Vector.replicate 25 0)) ≠ Vector.replicate 25 0

/-- PERMUTE, RDLANE and WRLANE in a session: their results, and that WRLANE leaves every byte of every other lane alone
(R150, R151, R152). -/
def Obligations.RawAccessResults : Prop :=
  ∀ s : State, s.engine.fault = false → s.engine.phase ≠ .uninit →
    exec .permute s = .next (answered s { s.engine with lanes := keccakF s.engine.lanes, last := .ok } []) ∧
    (∀ i : Fin 25, exec (.rdlane i) s =
      .next (answered s { s.engine with last := .ok } ((List.range 8).map fun k => stateByte s.engine.lanes (8 * i.val + k)))) ∧
    (∀ (i : Fin 25) (v : Lane), ∃ A : Lanes,
      exec (.wrlane i v) s = .next (answered s { s.engine with lanes := A, last := .ok } []) ∧
      A[i] = v ∧ (∀ j : Fin 25, j ≠ i → A[j] = s.engine.lanes[j]) ∧
      ∀ k, k / 8 ≠ i.val → stateByte A k = stateByte s.engine.lanes k)

/-! ### Padding -/

/-- The padded length (R171) and the boundary cases of the padding (R172, R173, R174). -/
def Obligations.PaddingLengthAndBoundaryCases : Prop :=
  ∀ (M : List Byte) (R : Nat), 1 ≤ R → R ≤ 199 →
    (pad M R).length = R * (M.length / R + 1) ∧
    (M.length % R = R - 1 → pad M R = M ++ [0x81]) ∧
    (2 ≤ R → M.length % R = R - 2 → pad M R = M ++ [0x01, 0x80]) ∧
    (2 ≤ R → M.length % R = 0 → pad M R = M ++ ([0x01] ++ List.replicate (R - 2) 0x00 ++ [0x80])) ∧
    (R = 1 → pad M R = M ++ [0x81])

/-- Unpad gives the message back; the last byte is 0x81 exactly when one byte of padding was needed (R175). -/
def Obligations.UnpadRecoversMessage : Prop :=
  ∀ (M : List Byte) (R : Nat), 1 ≤ R → R ≤ 199 →
    unpad (pad M R) = some M ∧
    ((pad M R).getLast? = some 0x81 ↔ R - M.length % R = 1) ∧
    ((pad M R).getLast? = some 0x80 ↔ R - M.length % R ≠ 1)

/-! ### The sponge's internal operations -/

/-- XorBlock is byte-wise: S[k] ← S[k] ^ blk[k] for k < R, and the capacity is never written (R190). -/
def Obligations.XorBlockIsBytewise : Prop :=
  ∀ (A : Lanes) (blk : List Byte) (k : Nat), blk.length ≤ 199 → k < 200 →
    stateByte (xorBlock A blk) k = if h : k < blk.length then stateByte A k ^^^ blk[k] else stateByte A k

/-- A state byte reads back what was written to it, and a write leaves every other byte alone (R60). -/
def Obligations.StateByteWriteThenRead : Prop :=
  ∀ (A : Lanes) (k j : Nat) (v : Byte), k < 200 → j < 200 →
    stateByte (setStateByte A k v) j = if j = k then v else stateByte A j

/-- AbsorbBlocks absorbs the first R bytes as long as there are R, and leaves a remainder below R, in order (R191). -/
def Obligations.AbsorbBlocksUnrolls : Prop :=
  ∀ (R : Nat) (A : Lanes) (buf : List Byte), 1 ≤ R →
    (R ≤ buf.length → absorbBlocks R A buf = absorbBlocks R (keccakF (xorBlock A (buf.take R))) (buf.drop R)) ∧
    (buf.length < R → absorbBlocks R A buf = (A, buf)) ∧
    (absorbBlocks R A buf).2.length < R ∧
    (absorbBlocks R A buf).2 = buf.drop (R * (buf.length / R))

/-- Extract: pass j gives R bytes of F^j of the state, n bytes in all, with F between passes and none after the last
(R192). -/
def Obligations.ExtractionPasses : Prop :=
  ∀ (R n : Nat) (A : Lanes), 1 ≤ R → 1 ≤ n →
    (extract R n A).2.length = n ∧
    (extract R n A).1 = keccakF^[(n + R - 1) / R - 1] A ∧
    ∀ k, k < n → (extract R n A).2[k]? = some (stateByte (keccakF^[k / R] A) (k % R))

/-! ### The sponge commands -/

/-- INIT with legal operands starts the session of R200, from any phase. -/
def Obligations.InitStartsSession : Prop :=
  ∀ (s : State) (r c o : Word32), s.engine.fault = false →
    0 < r.toNat → 0 < c.toNat → r.toNat + c.toNat = 1600 → r.toNat % 8 = 0 → 0 < o.toNat → o.toNat % 8 = 0 →
    o.toNat ≤ 8 * s.maxOutBytes →
    ∃ e : Engine, exec (.init r c o) s = .next (answered s e []) ∧
      (∀ i : Fin 25, e.lanes[i] = 0) ∧ e.pending = [] ∧
      e.rateBits.toNat = r.toNat ∧ e.capBits.toNat = c.toNat ∧ e.outBits = o ∧
      e.ksblk = List.replicate (o.toNat / 8) 0 ∧ e.ksptr = 0 ∧ e.phase = .absorbing ∧ e.last = .ok ∧
      e.fault = false ∧ e.cause = s.engine.cause

/-- INIT's legal operand set is exactly that of R201; every other triple raises INVALID_SPEC, the listed examples among
them. -/
def Obligations.InitLegalOperandsExactly : Prop :=
  (∀ (s : State) (r c o : Word32), s.engine.fault = false →
    ((∃ k, 1 ≤ k ∧ k ≤ 199 ∧ r.toNat = 8 * k) ∧ c.toNat = 1600 - r.toNat ∧
        (∃ k, 1 ≤ k ∧ k ≤ s.maxOutBytes ∧ o.toNat = 8 * k) →
      ∃ t, exec (.init r c o) s = .next t ∧ t.engine.last = .ok) ∧
    (¬((∃ k, 1 ≤ k ∧ k ≤ 199 ∧ r.toNat = 8 * k) ∧ c.toNat = 1600 - r.toNat ∧
        (∃ k, 1 ≤ k ∧ k ≤ s.maxOutBytes ∧ o.toNat = 8 * k)) →
      exec (.init r c o) s = .next (errorState s .invalidSpec))) ∧
  ∀ (s : State) (r c o : Word32), s.engine.fault = false →
    exec (.init 1600 0 o) s = .next (errorState s .invalidSpec) ∧
    exec (.init 0 1600 o) s = .next (errorState s .invalidSpec) ∧
    exec (.init 1000 599 o) s = .next (errorState s .invalidSpec) ∧
    exec (.init 1601 4294967295 o) s = .next (errorState s .invalidSpec) ∧
    exec (.init 1596 4 o) s = .next (errorState s .invalidSpec) ∧
    exec (.init r c 0) s = .next (errorState s .invalidSpec) ∧
    exec (.init r c 12) s = .next (errorState s .invalidSpec) ∧
    (8 * s.maxOutBytes < o.toNat → exec (.init r c o) s = .next (errorState s .invalidSpec))

/-- The engine at the start of a session is the same function of (r, c, o), whatever came before (R312). -/
def Obligations.InitForgetsThePast : Prop :=
  ∀ (s₁ s₂ : State) (r c o : Word32), Inv s₁ → Inv s₂ → s₁.maxOutBytes = s₂.maxOutBytes →
    s₁.engine.fault = false → s₂.engine.fault = false →
    legalSpec s₁.maxOutBytes r.toNat c.toNat o.toNat = true →
    ∃ t₁ t₂, exec (.init r c o) s₁ = .next t₁ ∧ exec (.init r c o) s₂ = .next t₂ ∧ t₁.engine = t₂.engine

/-- ABSORB's result, and PENDLEN after it (R202). -/
def Obligations.AbsorbResult : Prop :=
  ∀ (s : State) (data : List Byte), Live s .absorbing →
    let r := absorbBlocks s.engine.rateBytes s.engine.lanes (s.engine.pending ++ data)
    exec (.absorb data) s = .next (answered s { s.engine with lanes := r.1, pending := r.2, last := .ok } []) ∧
    r.2.length = (s.engine.pending.length + data.length) % s.engine.rateBytes ∧
    (data = [] → r = (s.engine.lanes, s.engine.pending))

/-- DIGEST's result: pad, absorb all of it, extract, latch the block (R204). -/
def Obligations.DigestResult : Prop :=
  ∀ (s : State) (final : List Byte), Live s .absorbing →
    let R := s.engine.rateBytes
    let r := absorbBlocks R s.engine.lanes (pad (s.engine.pending ++ final) R)
    let x := extract R s.engine.outBytes r.1
    r.2 = [] ∧
    exec (.digest final) s =
      .next (answered s
        { s.engine with
          lanes := x.1, pending := [], phase := .squeezing, ksblk := x.2, ksptr := 0, last := .ok } x.2)

/-- SQUEEZE's result: F, extract, latch the block (R193, R206); and FASTSQZ's: k·⌈n/R⌉ evaluations of F, and with k ≥ 1 the
block is exhausted while KSBLK stays (R208). -/
def Obligations.SqueezeAndFastSqueezeResults : Prop :=
  ∀ s : State, Live s .squeezing →
    (let x := extract s.engine.rateBytes s.engine.outBytes (keccakF s.engine.lanes)
     exec .squeeze s =
      .next (answered s { s.engine with lanes := x.1, ksblk := x.2, ksptr := 0, last := .ok } x.2)) ∧
    (∀ k : BitVec 16, exec (.fastsqz k) s =
      .next (answered s
        { s.engine with
          lanes := keccakF^[k.toNat * passes s.engine.rateBytes s.engine.outBytes] s.engine.lanes
          ksptr := if 1 ≤ k.toNat then s.engine.outBytes else s.engine.ksptr
          last := .ok } []))

/-- The work of each command in evaluations of F (R325), read from the lanes it leaves: F iterated that often, or that many
rate blocks absorbed with F after each and F between the extraction passes. -/
def Obligations.WorkPerCommandInEvaluationsOfF : Prop :=
  ∀ (i : Instr) (s t : State), Inv s → exec i s = .next t → t.engine.last = .ok →
    let e := s.engine
    match i with
    | .absorb d =>
      t.engine.lanes = absorbedBlocks e.lanes (rateBlocks e.rateBytes (e.pending ++ d)) ∧
      (rateBlocks e.rateBytes (e.pending ++ d)).length = evaluationsOfF e (.absorb d)
    | .digest d =>
      let blks := rateBlocks e.rateBytes (pad (e.pending ++ d) e.rateBytes)
      t.engine.lanes = keccakF^[passes e.rateBytes e.outBytes - 1] (absorbedBlocks e.lanes blks) ∧
      blks.length + (passes e.rateBytes e.outBytes - 1) = evaluationsOfF e (.digest d)
    | .squeeze => t.engine.lanes = keccakF^[evaluationsOfF e .squeeze] e.lanes
    | .fastsqz k => t.engine.lanes = keccakF^[evaluationsOfF e (.fastsqz k)] e.lanes
    | .ksxor d =>
      t.engine.lanes = keccakF^[evaluationsOfF e (.ksxor d)] e.lanes ∧
      refills e d.length ≤ (d.length + e.outBytes - 1) / e.outBytes
    | .permute => t.engine.lanes = keccakF^[evaluationsOfF e .permute] e.lanes
    | .rdlane _ => t.engine.lanes = e.lanes
    | .stat => t.engine.lanes = e.lanes
    | .init _ _ _ => t.engine.lanes = Vector.replicate 25 0
    | .wrlane k v => t.engine.lanes = e.lanes.set k v
    | .dispose => t.engine.lanes = Vector.replicate 25 0

/-- The count law of FASTSQZ (R209). -/
def Obligations.FastSqueezeCountLaw : Prop :=
  ∀ s : State, Live s .squeezing →
    (∀ k : BitVec 16, ∃ t u, exec (.fastsqz k) s = .next t ∧ execAll (List.replicate k.toNat .squeeze) s = .next u ∧
      t.engine.lanes = u.engine.lanes ∧
      t.engine.lanes = keccakF^[k.toNat * passes s.engine.rateBytes s.engine.outBytes] s.engine.lanes ∧
      (1 ≤ k.toNat →
        u.engine = { t.engine with ksblk := u.engine.ksblk, ksptr := 0 } ∧ t.engine.ksptr = s.engine.outBytes ∧
        lastData u = some u.engine.ksblk)) ∧
    (∀ a b c : BitVec 16, a.toNat + b.toNat = c.toNat →
      ∃ t u, execAll [.fastsqz a, .fastsqz b] s = .next t ∧ exec (.fastsqz c) s = .next u ∧ t.engine = u.engine)

/-- DISPOSE is the soft reset: exactly the state of R310, in every phase, locked or not, idempotent, with STATUS zero; a
malformed one fails with BAD_OPERAND (R311). -/
def Obligations.DisposeIsSoftReset : Prop :=
  ∀ s : State,
    exec .dispose s = .next (answered s Engine.reset []) ∧
    statusWord Engine.reset = 0 ∧ Engine.reset = State.reset.engine ∧
    (∃ t, execAll [.dispose, .dispose] s = .next t ∧ t.engine = Engine.reset) ∧
    (∀ rest, ∃ t u, step { s with actions := .reset :: rest } = .next t ∧
      step { s with actions := .reset :: .reset :: rest } = .next u ∧ t.engine = Engine.reset ∧
      ∃ v, step u = .next v ∧ v.engine = Engine.reset) ∧
    (∀ w : Word32, w.toNat % 256 = 0x0A → w ≠ 0x0000000A → execute w [] s = .next (errorState s .badOperand))

/-- STAT changes LAST only, in every phase, locked or not (R212). -/
def Obligations.StatChangesLastOnly : Prop :=
  ∀ s : State, exec .stat s = .next (answered s { s.engine with last := .ok } [])

/-! ### Laws of the sponge and the keystream -/

/-- The digest law: DIGEST outputs KeccakSponge of the whole message, whatever the split and whatever STATs stand between
(R213, R214). -/
def Obligations.DigestEqualsKeccakSponge : Prop :=
  ∀ (s : State) (r c o : Word32) (is : List Instr) (final : List Byte), Inv s → s.engine.fault = false →
    legalSpec s.maxOutBytes r.toNat c.toNat o.toNat = true → (∀ i ∈ is, i.opcode ∈ [.absorb, .stat]) →
    let M := is.flatMap dataOf ++ final
    ∃ t, execAll (.init r c o :: (is ++ [.digest final])) s = .next t ∧ t.engine.last = .ok ∧
      lastData t = some (keccakSponge (r.toNat / 8) (o.toNat / 8) M) ∧
      t.engine.ksblk = keccakSponge (r.toNat / 8) (o.toNat / 8) M

/-- Streaming equivalence: from any state, two sequences of ABSORBs with the same bytes leave the same LANE, PENDING and
PHASE (R215). -/
def Obligations.StreamingEquivalence : Prop :=
  ∀ (s : State) (ps qs : List (List Byte)), Inv s → ps.flatten = qs.flatten →
    ∃ t u, execAll (ps.map .absorb) s = .next t ∧ execAll (qs.map .absorb) s = .next u ∧
      t.engine.lanes = u.engine.lanes ∧ t.engine.pending = u.engine.pending ∧ t.engine.phase = u.engine.phase

/-- KSXOR's result in closed form: every output byte is the data byte XOR the next keystream byte; the block, the cursor
and the lanes after it; one squeeze per refill, and refills only when a byte is needed (R240, R241, R243). -/
def Obligations.KsxorResult : Prop :=
  ∀ (s : State) (data : List Byte), Live s .squeezing →
    let R := s.engine.rateBytes
    let n := s.engine.outBytes
    let m := refills s.engine data.length
    exec (.ksxor data) s =
      .next (answered s
        { s.engine with
          lanes := keccakF^[m * passes R n] s.engine.lanes
          ksblk := if m = 0 then s.engine.ksblk else squeezedBlock R n (m - 1) s.engine.lanes
          ksptr := s.engine.ksptr + data.length - m * n
          last := .ok }
        (data.mapIdx fun i d => d ^^^ keystreamByte s.engine i))

/-- The keystream order law: the KSXOR responses of any sequence of KSXORs, STATs and RDLANEs join to the data XOR the
keystream, and one KSXOR of all the data returns the same bytes and leaves the same engine (R242). -/
def Obligations.KeystreamOrderLaw : Prop :=
  ∀ (s : State) (is : List Instr), Live s .squeezing → is ≠ [] → (∀ i ∈ is, i.opcode ∈ [.ksxor, .stat, .rdlane]) →
    let D := is.flatMap dataOf
    ∃ t u, execAll is s = .next t ∧ exec (.ksxor D) s = .next u ∧ t.engine = u.engine ∧
      ksxorData is (t.responses.drop s.responses.length) = D.mapIdx (fun i d => d ^^^ keystreamByte s.engine i) ∧
      lastData u = some (D.mapIdx fun i d => d ^^^ keystreamByte s.engine i)

/-- The cipher round trip: two sessions started by the same commands, whatever they are, are in the same state; once in
SQUEEZING, the second fed the responses of a KSXOR sequence in the first returns the data (R245). -/
def Obligations.CipherRoundTrip : Prop :=
  ∀ (s₁ s₂ : State) (r c o : Word32) (is : List Instr), Inv s₁ → Inv s₂ → s₁.engine.fault = false →
    s₂.engine.fault = false → s₁.maxOutBytes = s₂.maxOutBytes →
    legalSpec s₁.maxOutBytes r.toNat c.toNat o.toNat = true →
    ∃ a₁ a₂, execAll (.init r c o :: is) s₁ = .next a₁ ∧ execAll (.init r c o :: is) s₂ = .next a₂ ∧
      a₁.engine = a₂.engine ∧
      ∀ D : List (List Byte), a₁.engine.fault = false → a₁.engine.phase = .squeezing →
        ∃ b₁ b₂, execAll (D.map .ksxor) a₁ = .next b₁ ∧
          execAll (((b₁.responses.drop a₁.responses.length).map (·.data)).map .ksxor) a₂ = .next b₂ ∧
          (b₂.responses.drop a₂.responses.length).map (·.data) = D

/-- The confirmation hash: the host program CONFIRM returns the (N−1)-th squeeze after the digest of P, and its lanes have
gone through N·⌈n/R⌉ + ⌊|P|/R⌋ evaluations of F (R248). -/
def Obligations.ConfirmProtocolResult : Prop :=
  ∀ (s : State) (r c o : Word32) (P : List Byte) (N : Nat), Inv s → s.engine.fault = false →
    legalSpec s.maxOutBytes r.toNat c.toNat o.toNat = true → 1 ≤ N →
    ∃ t, execAll (pseudoConfirm r c o P N) s = .next t ∧
      let R := r.toNat / 8
      let n := o.toNat / 8
      lastData t = some (spongeOutput R n (keccakF^[(N - 1) * passes R n] (spongeState R P))) ∧
      t.engine.lanes = keccakF^[N * passes R n - 1] (spongeState R P) ∧
      (rateBlocks R (pad P R)).length = P.length / R + 1

/-- The keystream session: KSOPEN leaves the digest of P then K as the first keystream block, unused (R246). -/
def Obligations.KsopenProtocolResult : Prop :=
  ∀ (s : State) (r c o : Word32) (P K : List Byte), Inv s → s.engine.fault = false →
    legalSpec s.maxOutBytes r.toNat c.toNat o.toNat = true →
    ∃ t, execAll (pseudoKsopen r c o P K) s = .next t ∧ Live t .squeezing ∧ t.engine.ksptr = 0 ∧
      t.engine.ksblk = keccakSponge (r.toNat / 8) (o.toNat / 8) (P ++ K) ∧ lastData t = some t.engine.ksblk

/-- Every pseudo-instruction of R100 expands to encodable commands, and each but KSOPEN and CONFIRM, whose operations are
`KsopenProtocolResult` and `ConfirmProtocolResult`, does the one operation it names. -/
def Obligations.PseudoExpansionsDoOneOperation : Prop :=
  (∀ s : State, execAll pseudoNop s = exec .stat s) ∧
  (∀ (s : State) (m : List Byte), Live s .absorbing → ∃ t, execAll (pseudoAbsorbl m) s = .next t ∧
    let r := absorbBlocks s.engine.rateBytes s.engine.lanes (s.engine.pending ++ m)
    t.engine = { s.engine with lanes := r.1, pending := r.2, last := t.engine.last }) ∧
  (∀ (s : State) (m : List Byte), Live s .absorbing → ∃ t u, execAll (pseudoDigestl m) s = .next t ∧
    exec (.digest m) s = .next u ∧ t.engine = u.engine ∧ lastData t = lastData u) ∧
  (∀ (s : State) (k : Nat), Live s .squeezing → ∃ t, execAll (pseudoFastsqzl k) s = .next t ∧
    t.engine =
      { s.engine with
        lanes := keccakF^[k * passes s.engine.rateBytes s.engine.outBytes] s.engine.lanes
        ksptr := if 1 ≤ k then s.engine.outBytes else s.engine.ksptr
        last := t.engine.last }) ∧
  (∀ (s : State) (r c o : Word32) (m : List Byte), Inv s → s.engine.fault = false →
    legalSpec s.maxOutBytes r.toNat c.toNat o.toNat = true →
    ∃ t, execAll (pseudoHash r c o m) s = .next t ∧ t.engine.last = .ok ∧
      lastData t = some (keccakSponge (r.toNat / 8) (o.toNat / 8) m)) ∧
  (∀ (s : State) (L : Nat), Live s .squeezing → L ≤ 65535 → ∃ t, execAll (pseudoKeystream L) s = .next t ∧
    lastData t = some ((List.range L).map (keystreamByte s.engine))) ∧
  (∀ (s : State) (p : Phase) (v : Lanes), Live s p → p ≠ .uninit → ∃ t u, execAll (pseudoLdstate v) s = .next t ∧
    t.engine = { s.engine with lanes := v, last := .ok } ∧ execAll pseudoStstate t = .next u ∧
    dataFrom t.responses.length u = stateBytes v 200) ∧
  (∀ (r c o : Word32) (m K : List Byte) (k N L : Nat) (v : Lanes), L ≤ 65535 →
    ∀ i ∈ pseudoNop ++ pseudoAbsorbl m ++ pseudoDigestl m ++ pseudoFastsqzl k ++ pseudoHash r c o m ++ pseudoKeystream L ++
      pseudoKsopen r c o m K ++ pseudoConfirm r c o m N ++ pseudoLdstate v ++ pseudoStstate, i.wf = true)
end

