-- ==== Sys2Proof/Laws/Decode.lean ====
section
/-! SUPPORT. The small lemmas of the byte helpers, of the command word's fields and of the opcode map. -/

namespace Sys2Proof

@[simp] theorem opcField_wordOf (len : BitVec 16) (rsv : BitVec 3) (idx : BitVec 5) (opc : BitVec 8) :
    opcField (wordOf len rsv idx opc) = opc := by
  apply BitVec.eq_of_getLsbD_eq
  intro i hi
  simp only [opcField, wordOf, BitVec.getLsbD_extractLsb', BitVec.getLsbD_append]
  simp [hi]

@[simp] theorem idxField_wordOf (len : BitVec 16) (rsv : BitVec 3) (idx : BitVec 5) (opc : BitVec 8) :
    idxField (wordOf len rsv idx opc) = idx := by
  apply BitVec.eq_of_getLsbD_eq
  intro i hi
  simp only [idxField, wordOf, BitVec.getLsbD_extractLsb', BitVec.getLsbD_append]
  simp [hi, show ¬ 8 + i < 8 by omega, show 8 + i - 8 = i by omega]

@[simp] theorem rsvField_wordOf (len : BitVec 16) (rsv : BitVec 3) (idx : BitVec 5) (opc : BitVec 8) :
    rsvField (wordOf len rsv idx opc) = rsv := by
  apply BitVec.eq_of_getLsbD_eq
  intro i hi
  simp only [rsvField, wordOf, BitVec.getLsbD_extractLsb', BitVec.getLsbD_append]
  simp [hi, show ¬ 13 + i < 8 by omega, show ¬ 13 + i - 8 < 5 by omega, show 13 + i - 8 - 5 = i by omega]

@[simp] theorem lenField_wordOf (len : BitVec 16) (rsv : BitVec 3) (idx : BitVec 5) (opc : BitVec 8) :
    lenField (wordOf len rsv idx opc) = len := by
  apply BitVec.eq_of_getLsbD_eq
  intro i hi
  simp only [lenField, wordOf, BitVec.getLsbD_extractLsb', BitVec.getLsbD_append]
  simp [hi, show ¬ 16 + i < 8 by omega, show ¬ 16 + i - 8 < 5 by omega, show ¬ 16 + i - 8 - 5 < 3 by omega,
    show 16 + i - 8 - 5 - 3 = i by omega]

/-- A word is the word of its fields: the format has no other bits (R91). -/
theorem wordOf_fields (w : Word32) : wordOf (lenField w) (rsvField w) (idxField w) (opcField w) = w := by
  apply BitVec.eq_of_getLsbD_eq
  intro i hi
  simp only [wordOf, opcField, idxField, rsvField, lenField, BitVec.getLsbD_append, BitVec.getLsbD_extractLsb']
  by_cases h₁ : i < 8
  · simp [h₁]
  · by_cases h₂ : i - 8 < 5
    · simp [h₁, h₂, show 8 + (i - 8) = i by omega]
    · by_cases h₃ : i - 8 - 5 < 3
      · simp [h₁, h₂, h₃, show 13 + (i - 8 - 5) = i by omega]
      · simp [h₁, h₂, h₃, show i - 8 - 5 - 3 < 16 by omega, show 16 + (i - 8 - 5 - 3) = i by omega]

/-! The fields as quotients and remainders of the word (R92). -/

theorem opcField_toNat (w : Word32) : (opcField w).toNat = w.toNat % 256 := by
  simp [opcField, BitVec.extractLsb'_toNat]
theorem idxField_toNat (w : Word32) : (idxField w).toNat = w.toNat / 256 % 32 := by
  simp [idxField, BitVec.extractLsb'_toNat, Nat.shiftRight_eq_div_pow]
theorem rsvField_toNat (w : Word32) : (rsvField w).toNat = w.toNat / 8192 % 8 := by
  simp [rsvField, BitVec.extractLsb'_toNat, Nat.shiftRight_eq_div_pow]
theorem lenField_toNat (w : Word32) : (lenField w).toNat = w.toNat / 65536 := by
  have := w.isLt
  simp only [lenField, BitVec.extractLsb'_toNat, Nat.shiftRight_eq_div_pow]
  omega

/-! Well-formedness. -/

@[simp] theorem wf_absorb (d : List Byte) : (Instr.absorb d).wf = true ↔ d.length ≤ 65535 := decide_eq_true_iff
@[simp] theorem wf_digest (d : List Byte) : (Instr.digest d).wf = true ↔ d.length ≤ 65535 := decide_eq_true_iff
@[simp] theorem wf_ksxor (d : List Byte) : (Instr.ksxor d).wf = true ↔ d.length ≤ 65535 := decide_eq_true_iff

/-! Opcodes. -/

@[simp] theorem ofByte_byte (op : Opcode) : Opcode.ofByte op.byte = some op := by cases op <;> rfl

theorem ofByte_eq_some {b : BitVec 8} {op : Opcode} (h : Opcode.ofByte b = some op) : b = op.byte := by
  revert h; revert op b; decide

theorem ofByte_eq_none {b : BitVec 8} : Opcode.ofByte b = none ↔ b.toNat = 0 ∨ 0x0C ≤ b.toNat := by
  revert b; decide

/-! Little-endian bytes. -/

@[simp] theorem leBytes_length {w : Nat} (n : Nat) (v : BitVec w) : (leBytes n v).length = n := by simp [leBytes]

theorem leNat_lt (s : List Byte) : leNat s < 256 ^ s.length := by
  induction s with
  | nil => simp [leNat]
  | cons b bs ih =>
    have := b.isLt
    simp only [leNat, List.length_cons, Nat.pow_succ]
    omega

theorem leNat_append (s t : List Byte) : leNat (s ++ t) = leNat s + 256 ^ s.length * leNat t := by
  induction s with
  | nil => simp [leNat]
  | cons b bs ih => simp only [List.cons_append, leNat, ih, List.length_cons, Nat.pow_succ]; ring

theorem leBytes_succ {w : Nat} (n : Nat) (v : BitVec w) :
    leBytes (n + 1) v = leBytes n v ++ [v.extractLsb' (8 * n) 8] := by
  simp [leBytes, List.range_succ]

/-- The n bytes of a value give its low 8n bits back. -/
theorem leNat_leBytes {w : Nat} (n : Nat) (v : BitVec w) : leNat (leBytes n v) = v.toNat % 2 ^ (8 * n) := by
  induction n with
  | zero => simp [leBytes, leNat, Nat.mod_one]
  | succ n ih =>
    rw [leBytes_succ, leNat_append, ih, leBytes_length]
    simp only [leNat, BitVec.extractLsb'_toNat, Nat.shiftRight_eq_div_pow, Nat.mul_zero, Nat.add_zero]
    rw [show (256 : Nat) = 2 ^ 8 by rfl, ← Nat.pow_mul, show 8 * (n + 1) = 8 * n + 8 by ring, Nat.pow_add,
      Nat.mod_mul]

@[simp] theorem le32_leBytes (v : Word32) : le32 (leBytes 4 v) = v := by
  apply BitVec.eq_of_toNat_eq
  have := v.isLt
  simp only [le32, BitVec.toNat_ofNat, leNat_leBytes]
  omega

@[simp] theorem le64_leBytes (v : Lane) : le64 (leBytes 8 v) = v := by
  apply BitVec.eq_of_toNat_eq
  have := v.isLt
  simp only [le64, BitVec.toNat_ofNat, leNat_leBytes]
  omega

end Sys2Proof
end

