-- ==== Sys2Proof/Laws/State.lean ====
section
/-! SUPPORT. One lemma per field per update of State and Engine, true by rfl; no later proof unfolds a record update. -/

namespace Sys2Proof.Machine

/-! ### respond -/

@[simp] theorem respond_engine (s : State) (e : Engine) (l : Last) (d : List Byte) :
    (s.respond e l d).engine = { e with last := l } := rfl
@[simp] theorem respond_maxOutBytes (s : State) (e : Engine) (l : Last) (d : List Byte) :
    (s.respond e l d).maxOutBytes = s.maxOutBytes := rfl
@[simp] theorem respond_actions (s : State) (e : Engine) (l : Last) (d : List Byte) :
    (s.respond e l d).actions = s.actions := rfl
@[simp] theorem respond_responses (s : State) (e : Engine) (l : Last) (d : List Byte) :
    (s.respond e l d).responses = s.responses ++ [⟨statusWord { e with last := l }, d⟩] := rfl

/-! ### complete, raise, lockOut, clearEngine -/

@[simp] theorem complete_engine (s : State) (r : Engine × List Byte) :
    (s.complete r).engine = { r.1 with last := .ok } := rfl
@[simp] theorem complete_maxOutBytes (s : State) (r : Engine × List Byte) :
    (s.complete r).maxOutBytes = s.maxOutBytes := rfl
@[simp] theorem complete_actions (s : State) (r : Engine × List Byte) : (s.complete r).actions = s.actions := rfl
@[simp] theorem complete_responses (s : State) (r : Engine × List Byte) :
    (s.complete r).responses = s.responses ++ [⟨statusWord { r.1 with last := .ok }, r.2⟩] := rfl

@[simp] theorem raise_engine (s : State) (c : Err) :
    (s.raise c).engine = { s.engine.latchFault c with last := .err c } := rfl
@[simp] theorem raise_maxOutBytes (s : State) (c : Err) : (s.raise c).maxOutBytes = s.maxOutBytes := rfl
@[simp] theorem raise_actions (s : State) (c : Err) : (s.raise c).actions = s.actions := rfl
@[simp] theorem raise_responses (s : State) (c : Err) :
    (s.raise c).responses =
      s.responses ++ [⟨statusWord { s.engine.latchFault c with last := .err c }, []⟩] := rfl

@[simp] theorem lockOut_engine (s : State) : s.lockOut.engine = { s.engine with last := .locked } := rfl
@[simp] theorem lockOut_maxOutBytes (s : State) : s.lockOut.maxOutBytes = s.maxOutBytes := rfl
@[simp] theorem lockOut_actions (s : State) : s.lockOut.actions = s.actions := rfl
@[simp] theorem lockOut_responses (s : State) :
    s.lockOut.responses = s.responses ++ [⟨statusWord { s.engine with last := .locked }, []⟩] := rfl

@[simp] theorem clearEngine_engine (s : State) : s.clearEngine.engine = Engine.reset := rfl
@[simp] theorem clearEngine_maxOutBytes (s : State) : s.clearEngine.maxOutBytes = s.maxOutBytes := rfl
@[simp] theorem clearEngine_actions (s : State) : s.clearEngine.actions = s.actions := rfl
@[simp] theorem clearEngine_responses (s : State) : s.clearEngine.responses = s.responses := rfl

/-! ### latchFault: everything but FAULT and CAUSE is unchanged (R281) -/

theorem latchFault_of_fault (e : Engine) (c : Err) (h : e.fault = true) : e.latchFault c = e := by
  simp [Engine.latchFault, h]
theorem latchFault_of_not_fault (e : Engine) (c : Err) (h : e.fault = false) :
    e.latchFault c = { e with fault := true, cause := .err c } := by simp [Engine.latchFault, h]
@[simp] theorem latchFault_lanes (e : Engine) (c : Err) : (e.latchFault c).lanes = e.lanes := by
  unfold Engine.latchFault; split <;> rfl
@[simp] theorem latchFault_pending (e : Engine) (c : Err) : (e.latchFault c).pending = e.pending := by
  unfold Engine.latchFault; split <;> rfl
@[simp] theorem latchFault_rateBits (e : Engine) (c : Err) : (e.latchFault c).rateBits = e.rateBits := by
  unfold Engine.latchFault; split <;> rfl
@[simp] theorem latchFault_capBits (e : Engine) (c : Err) : (e.latchFault c).capBits = e.capBits := by
  unfold Engine.latchFault; split <;> rfl
@[simp] theorem latchFault_outBits (e : Engine) (c : Err) : (e.latchFault c).outBits = e.outBits := by
  unfold Engine.latchFault; split <;> rfl
@[simp] theorem latchFault_phase (e : Engine) (c : Err) : (e.latchFault c).phase = e.phase := by
  unfold Engine.latchFault; split <;> rfl
@[simp] theorem latchFault_ksblk (e : Engine) (c : Err) : (e.latchFault c).ksblk = e.ksblk := by
  unfold Engine.latchFault; split <;> rfl
@[simp] theorem latchFault_ksptr (e : Engine) (c : Err) : (e.latchFault c).ksptr = e.ksptr := by
  unfold Engine.latchFault; split <;> rfl
@[simp] theorem latchFault_fault (e : Engine) (c : Err) : (e.latchFault c).fault = true := by
  unfold Engine.latchFault; split <;> simp_all

/-! ### latchBlock -/

@[simp] theorem latchBlock_lanes (e : Engine) (r : Lanes × List Byte) : (e.latchBlock r).lanes = r.1 := rfl
@[simp] theorem latchBlock_ksblk (e : Engine) (r : Lanes × List Byte) : (e.latchBlock r).ksblk = r.2 := rfl
@[simp] theorem latchBlock_ksptr (e : Engine) (r : Lanes × List Byte) : (e.latchBlock r).ksptr = 0 := rfl
@[simp] theorem latchBlock_pending (e : Engine) (r : Lanes × List Byte) : (e.latchBlock r).pending = e.pending := rfl
@[simp] theorem latchBlock_rateBits (e : Engine) (r : Lanes × List Byte) : (e.latchBlock r).rateBits = e.rateBits := rfl
@[simp] theorem latchBlock_capBits (e : Engine) (r : Lanes × List Byte) : (e.latchBlock r).capBits = e.capBits := rfl
@[simp] theorem latchBlock_outBits (e : Engine) (r : Lanes × List Byte) : (e.latchBlock r).outBits = e.outBits := rfl
@[simp] theorem latchBlock_phase (e : Engine) (r : Lanes × List Byte) : (e.latchBlock r).phase = e.phase := rfl
@[simp] theorem latchBlock_fault (e : Engine) (r : Lanes × List Byte) : (e.latchBlock r).fault = e.fault := rfl
@[simp] theorem latchBlock_cause (e : Engine) (r : Lanes × List Byte) : (e.latchBlock r).cause = e.cause := rfl
@[simp] theorem latchBlock_rateBytes (e : Engine) (r : Lanes × List Byte) :
    (e.latchBlock r).rateBytes = e.rateBytes := rfl
@[simp] theorem latchBlock_outBytes (e : Engine) (r : Lanes × List Byte) : (e.latchBlock r).outBytes = e.outBytes := rfl

/-! ### startSession -/

@[simp] theorem startSession_lanes (e : Engine) (r c o : Word32) :
    (e.startSession r c o).lanes = Vector.replicate 25 0 := rfl
@[simp] theorem startSession_pending (e : Engine) (r c o : Word32) : (e.startSession r c o).pending = [] := rfl
@[simp] theorem startSession_rateBits (e : Engine) (r c o : Word32) :
    (e.startSession r c o).rateBits = r.setWidth 11 := rfl
@[simp] theorem startSession_capBits (e : Engine) (r c o : Word32) :
    (e.startSession r c o).capBits = c.setWidth 11 := rfl
@[simp] theorem startSession_outBits (e : Engine) (r c o : Word32) : (e.startSession r c o).outBits = o := rfl
@[simp] theorem startSession_phase (e : Engine) (r c o : Word32) : (e.startSession r c o).phase = .absorbing := rfl
@[simp] theorem startSession_ksblk (e : Engine) (r c o : Word32) :
    (e.startSession r c o).ksblk = List.replicate (o.toNat / 8) 0 := rfl
@[simp] theorem startSession_ksptr (e : Engine) (r c o : Word32) : (e.startSession r c o).ksptr = 0 := rfl
@[simp] theorem startSession_fault (e : Engine) (r c o : Word32) : (e.startSession r c o).fault = e.fault := rfl
@[simp] theorem startSession_cause (e : Engine) (r c o : Word32) : (e.startSession r c o).cause = e.cause := rfl

/-! ### absorb, fastSqueeze, digest: what they leave -/

@[simp] theorem absorb_rateBits (e : Engine) (d : List Byte) : (e.absorb d).rateBits = e.rateBits := rfl
@[simp] theorem absorb_capBits (e : Engine) (d : List Byte) : (e.absorb d).capBits = e.capBits := rfl
@[simp] theorem absorb_outBits (e : Engine) (d : List Byte) : (e.absorb d).outBits = e.outBits := rfl
@[simp] theorem absorb_phase (e : Engine) (d : List Byte) : (e.absorb d).phase = e.phase := rfl
@[simp] theorem absorb_ksblk (e : Engine) (d : List Byte) : (e.absorb d).ksblk = e.ksblk := rfl
@[simp] theorem absorb_ksptr (e : Engine) (d : List Byte) : (e.absorb d).ksptr = e.ksptr := rfl
@[simp] theorem absorb_fault (e : Engine) (d : List Byte) : (e.absorb d).fault = e.fault := rfl
@[simp] theorem absorb_cause (e : Engine) (d : List Byte) : (e.absorb d).cause = e.cause := rfl
@[simp] theorem absorb_rateBytes (e : Engine) (d : List Byte) : (e.absorb d).rateBytes = e.rateBytes := rfl
@[simp] theorem absorb_outBytes (e : Engine) (d : List Byte) : (e.absorb d).outBytes = e.outBytes := rfl

@[simp] theorem fastSqueeze_pending (e : Engine) (k : Nat) : (e.fastSqueeze k).pending = e.pending := rfl
@[simp] theorem fastSqueeze_rateBits (e : Engine) (k : Nat) : (e.fastSqueeze k).rateBits = e.rateBits := rfl
@[simp] theorem fastSqueeze_capBits (e : Engine) (k : Nat) : (e.fastSqueeze k).capBits = e.capBits := rfl
@[simp] theorem fastSqueeze_outBits (e : Engine) (k : Nat) : (e.fastSqueeze k).outBits = e.outBits := rfl
@[simp] theorem fastSqueeze_phase (e : Engine) (k : Nat) : (e.fastSqueeze k).phase = e.phase := rfl
@[simp] theorem fastSqueeze_ksblk (e : Engine) (k : Nat) : (e.fastSqueeze k).ksblk = e.ksblk := rfl
@[simp] theorem fastSqueeze_fault (e : Engine) (k : Nat) : (e.fastSqueeze k).fault = e.fault := rfl
@[simp] theorem fastSqueeze_cause (e : Engine) (k : Nat) : (e.fastSqueeze k).cause = e.cause := rfl

@[simp] theorem digest_pending (e : Engine) (d : List Byte) : (e.digest d).1.pending = [] := rfl
@[simp] theorem digest_phase (e : Engine) (d : List Byte) : (e.digest d).1.phase = .squeezing := rfl
@[simp] theorem digest_rateBits (e : Engine) (d : List Byte) : (e.digest d).1.rateBits = e.rateBits := rfl
@[simp] theorem digest_capBits (e : Engine) (d : List Byte) : (e.digest d).1.capBits = e.capBits := rfl
@[simp] theorem digest_outBits (e : Engine) (d : List Byte) : (e.digest d).1.outBits = e.outBits := rfl
@[simp] theorem digest_ksblk (e : Engine) (d : List Byte) : (e.digest d).1.ksblk = (e.digest d).2 := rfl
@[simp] theorem digest_ksptr (e : Engine) (d : List Byte) : (e.digest d).1.ksptr = 0 := rfl
@[simp] theorem digest_fault (e : Engine) (d : List Byte) : (e.digest d).1.fault = e.fault := rfl
@[simp] theorem digest_cause (e : Engine) (d : List Byte) : (e.digest d).1.cause = e.cause := rfl

/-! ### the command channel -/

@[simp] theorem resetWith_engine (m : Nat) : (State.resetWith m).engine = Engine.reset := rfl
@[simp] theorem resetWith_maxOutBytes (m : Nat) : (State.resetWith m).maxOutBytes = m := rfl
@[simp] theorem resetWith_actions (m : Nat) : (State.resetWith m).actions = [] := rfl
@[simp] theorem resetWith_responses (m : Nat) : (State.resetWith m).responses = [] := rfl

end Sys2Proof.Machine
end

