-- ==== Sys2Proof/Laws/Ops.lean ====
section
/-! SUPPORT. What each shared operation can do, said once: the two command shapes, INIT, the decoder's failures, a host
action, and the lengths the sponge's loops give. -/

namespace Sys2Proof.Machine

/-! ### The command shapes -/

/-- Everything a command that needs a session can answer. -/
theorem rawCommand_next {body : Engine → Engine × List Byte} {s t : State} (h : rawCommand body s = .next t) :
    (s.engine.fault = true ∧ t = s.lockOut) ∨
    (s.engine.fault = false ∧ s.engine.phase = .uninit ∧ t = s.raise .notInitialised) ∨
    (s.engine.fault = false ∧ s.engine.phase ≠ .uninit ∧ t = s.complete (body s.engine)) := by
  unfold rawCommand at h
  split at h
  · exact .inl ⟨‹_›, by cases h; rfl⟩
  · split at h
    · exact .inr (.inl ⟨eq_false_of_ne_true ‹_›, ‹_›, by cases h; rfl⟩)
    · exact .inr (.inr ⟨eq_false_of_ne_true ‹_›, ‹_›, by cases h; rfl⟩)

/-- Everything a sponge command can answer with a next state. -/
theorem spongeCommand_next {p : Phase} {body : Engine → Engine × List Byte} {s t : State}
    (h : spongeCommand p body s = .next t) :
    (s.engine.fault = true ∧ t = s.lockOut) ∨
    (s.engine.fault = false ∧ s.engine.phase = .uninit ∧ t = s.raise .notInitialised) ∨
    (s.engine.fault = false ∧ s.engine.phase ≠ .uninit ∧ s.engine.phase ≠ p ∧ t = s.raise .wrongPhase) ∨
    (s.engine.fault = false ∧ s.engine.phase ≠ .uninit ∧ s.engine.phase = p ∧ s.engine.sessionOk = true ∧
      t = s.complete (body s.engine)) := by
  unfold spongeCommand at h
  split at h
  · exact .inl ⟨‹_›, by cases h; rfl⟩
  · have hf : s.engine.fault = false := eq_false_of_ne_true ‹_›
    split at h
    · exact .inr (.inl ⟨hf, ‹_›, by cases h; rfl⟩)
    · split at h
      · exact .inr (.inr (.inl ⟨hf, ‹_›, ‹_›, by cases h; rfl⟩))
      · split at h
        · exact .inr (.inr (.inr ⟨hf, ‹_›, not_not.mp ‹_›, ‹_›, by cases h; rfl⟩))
        · cases h

/-- A sponge command in its phase, unlocked, with the session registers in range, runs its body. -/
theorem spongeCommand_run {p : Phase} {body : Engine → Engine × List Byte} {s : State} (hf : s.engine.fault = false)
    (hp : s.engine.phase = p) (hu : p ≠ .uninit) (ho : s.engine.sessionOk = true) :
    spongeCommand p body s = .next (s.complete (body s.engine)) := by
  subst hp
  simp [spongeCommand, hf, hu, ho]

/-- A sponge command faults only in a session whose registers are out of range. -/
theorem spongeCommand_fault {p : Phase} {body : Engine → Engine × List Byte} {s : State} {r : Fault}
    (h : spongeCommand p body s = .fault r) :
    s.engine.phase = p ∧ s.engine.phase ≠ .uninit ∧ s.engine.sessionOk = false := by
  unfold spongeCommand at h
  split at h
  · cases h
  · split at h
    · cases h
    · split at h
      · cases h
      · split at h
        · cases h
        · exact ⟨not_not.mp ‹_›, ‹_›, eq_false_of_ne_true ‹_›⟩

/-- Everything INIT can answer. -/
theorem execInit_next {r c o : Word32} {s t : State} (h : execInit r c o s = .next t) :
    (s.engine.fault = true ∧ t = s.lockOut) ∨
    (s.engine.fault = false ∧ legalSpec s.maxOutBytes r.toNat c.toNat o.toNat = true ∧
      t = s.complete (s.engine.startSession r c o, [])) ∨
    (s.engine.fault = false ∧ legalSpec s.maxOutBytes r.toNat c.toNat o.toNat = false ∧ t = s.raise .invalidSpec) := by
  unfold execInit at h
  split at h
  · exact .inl ⟨‹_›, by cases h; rfl⟩
  · split at h
    · exact .inr (.inl ⟨eq_false_of_ne_true ‹_›, ‹_›, by cases h; rfl⟩)
    · exact .inr (.inr ⟨eq_false_of_ne_true ‹_›, eq_false_of_ne_true ‹_›, by cases h; rfl⟩)

/-- The legal configurations, as R10 states them. -/
theorem legalSpec_iff (m r c o : Nat) : legalSpec m r c o = true ↔
    0 < r ∧ 0 < c ∧ r + c = 1600 ∧ r % 8 = 0 ∧ 0 < o ∧ o % 8 = 0 ∧ o ≤ 8 * m := by
  simp [legalSpec, legalRates, and_assoc]

/-- The session registers are in range, as R26, R29 and R30 state it. -/
theorem sessionOk_iff (e : Engine) : e.sessionOk = true ↔
    (0 < e.rateBits.toNat ∧ 0 < e.capBits.toNat ∧ e.rateBits.toNat + e.capBits.toNat = 1600 ∧
      e.rateBits.toNat % 8 = 0 ∧ 0 < e.outBits.toNat ∧ e.outBits.toNat % 8 = 0) ∧
    e.ksblk.length = e.outBytes ∧ e.ksptr ≤ e.outBytes := by
  simp [Engine.sessionOk, legalRates, and_assoc]

/-! ### The arms of exec -/

@[simp] theorem exec_init (r c o : Word32) (s : State) : exec (.init r c o) s = execInit r c o s := rfl
@[simp] theorem exec_absorb (d : List Byte) (s : State) : exec (.absorb d) s = execAbsorb d s := rfl
@[simp] theorem exec_digest (d : List Byte) (s : State) : exec (.digest d) s = execDigest d s := rfl
@[simp] theorem exec_squeeze (s : State) : exec .squeeze s = execSqueeze s := rfl
@[simp] theorem exec_fastsqz (k : BitVec 16) (s : State) : exec (.fastsqz k) s = execFastsqz k s := rfl
@[simp] theorem exec_ksxor (d : List Byte) (s : State) : exec (.ksxor d) s = execKsxor d s := rfl
@[simp] theorem exec_permute (s : State) : exec .permute s = execPermute s := rfl
@[simp] theorem exec_rdlane (i : Fin 25) (s : State) : exec (.rdlane i) s = execRdlane i s := rfl
@[simp] theorem exec_wrlane (i : Fin 25) (v : Lane) (s : State) : exec (.wrlane i v) s = execWrlane i v s := rfl
@[simp] theorem exec_dispose (s : State) : exec .dispose s = execDispose s := rfl
@[simp] theorem exec_stat (s : State) : exec .stat s = execStat s := rfl

/-- No instruction's meaning refuses. -/
theorem exec_ne_refused (i : Instr) (s : State) (r : Refusal) : exec i s ≠ .refused r := by
  cases i <;>
    simp only [exec, execInit, execAbsorb, execDigest, execSqueeze, execFastsqz, execKsxor, execPermute, execRdlane,
      execWrlane, execDispose, execStat, spongeCommand, rawCommand] <;>
    (repeat' split) <;> simp

/-! ### Executing a word, a host action, a list of commands -/

/-- Everything `execute` can answer, by what the word decodes to. -/
theorem execute_of_ok {w : Word32} {p : List Byte} {i : Instr} (h : decode w p = .ok i) (s : State) :
    execute w p s = exec i s := by simp [execute, h]
theorem execute_of_payloadLength {w : Word32} {p : List Byte} (h : p.length ≠ plen w) (s : State) :
    execute w p s = .refused .payloadLength := by simp [execute, decode, h]
theorem execute_of_illegalOpcode {w : Word32} {p : List Byte} (h : decode w p = .error .illegalOpcode) (s : State) :
    execute w p s = .next (s.failDecode false .illegalOpcode) := by simp [execute, h]
theorem execute_of_badOperand {w : Word32} {p : List Byte} {op : Opcode} (h : decode w p = .error (.badOperand op))
    (s : State) : execute w p s = .next (s.failDecode (lockExempt op) .badOperand) := by simp [execute, h]

theorem failDecode_eq (s : State) (x : Bool) (c : Err) :
    s.failDecode x c = if s.engine.fault = true ∧ x = false then s.lockOut else s.raise c := by
  unfold State.failDecode
  cases s.engine.fault <;> cases x <;> rfl

theorem step_nil {s : State} (h : s.actions = []) : step s = .next s := by simp [step, takeAction, h]
theorem step_cons {s : State} {a : HostAction} {rest : List HostAction} (h : s.actions = a :: rest) :
    step s = perform a { s with actions := rest } := by simp [step, takeAction, h]

@[simp] theorem execAll_nil (s : State) : execAll [] s = .next s := rfl
theorem execAll_cons_next {i : Instr} {is : List Instr} {s t : State} (h : exec i s = .next t) :
    execAll (i :: is) s = execAll is t := by simp [execAll, h]
theorem execAll_append_next {is js : List Instr} {s t : State} (h : execAll is s = .next t) :
    execAll (is ++ js) s = execAll js t := by
  induction is generalizing s with
  | nil => cases h; rfl
  | cons i is ih =>
    cases hi : exec i s with
    | next u => rw [execAll_cons_next hi] at h; rw [List.cons_append, execAll_cons_next hi, ih h]
    | fault r => simp [execAll, hi] at h
    | refused r => simp [execAll, hi] at h

/-! ### The sponge's loops -/

@[simp] theorem stateBytes_length (A : Lanes) (m : Nat) : (stateBytes A m).length = m := by simp [stateBytes]

/-- The absorbing loop only drops whole blocks from the front of its input. -/
theorem absorbLoop_remainder (R fuel : Nat) (A : Lanes) (buf : List Byte) :
    ∃ k, k ≤ fuel ∧ (absorbLoop R fuel A buf).2 = buf.drop (k * R) := by
  induction fuel generalizing A buf with
  | zero => exact ⟨0, by simp [absorbLoop]⟩
  | succ n ih =>
    simp only [absorbLoop]
    split
    · obtain ⟨k, hk, he⟩ := ih (keccakF (xorBlock A (buf.take R))) (buf.drop R)
      exact ⟨k + 1, by omega, by rw [he, List.drop_drop]; congr 1; ring⟩
    · exact ⟨0, by omega, by simp⟩

/-- Extraction gives at most the bytes asked for. -/
theorem extractLoop_length_le (R n fuel : Nat) (A : Lanes) (out : List Byte) (h : out.length ≤ n) :
    (extractLoop R n fuel A out).2.length ≤ n := by
  induction fuel generalizing A out with
  | zero => simpa [extractLoop] using h
  | succ k ih =>
    simp only [extractLoop]
    split
    · simp; omega
    · exact ih _ _ (by simp; omega)

@[simp] theorem ksxorLoop_length (data : List Byte) (e : Engine) : (ksxorLoop data e).2.length = data.length := by
  induction data generalizing e with
  | nil => rfl
  | cons d ds ih => simp [ksxorLoop, ih]

/-- A refill writes the lanes, KSBLK and KSPTR only. -/
theorem refill_frame (e : Engine) :
    e.refill = { e with lanes := e.refill.lanes, ksblk := e.refill.ksblk, ksptr := e.refill.ksptr } := by
  unfold Engine.refill
  split <;> rfl

/-- KSXOR's loop writes the lanes, KSBLK and KSPTR only. -/
theorem ksxorLoop_frame (data : List Byte) (e : Engine) :
    (ksxorLoop data e).1 =
      { e with
        lanes := (ksxorLoop data e).1.lanes
        ksblk := (ksxorLoop data e).1.ksblk
        ksptr := (ksxorLoop data e).1.ksptr } := by
  induction data generalizing e with
  | nil => rfl
  | cons d ds ih =>
    simp only [ksxorLoop]
    rw [ih, refill_frame e]

end Sys2Proof.Machine
end

