-- ==== Sys2Proof/Laws/PerInstr.lean ====
section
/-! SUPPORT. Statements about every command as syntax, one lemma per constructor. -/

namespace Sys2Proof.Laws

/-! ### OpcodeField: the encoded word's OPC is the opcode's byte (30_encoding.md R95). -/

def OpcodeField.Statement (i : Instr) : Prop := opcField (encode i).1 = i.opcode.byte

theorem OpcodeField.init (r c o : Word32) : OpcodeField.Statement (.init r c o) := opcField_wordOf ..
theorem OpcodeField.absorb (d : List Byte) : OpcodeField.Statement (.absorb d) := opcField_wordOf ..
theorem OpcodeField.digest (d : List Byte) : OpcodeField.Statement (.digest d) := opcField_wordOf ..
theorem OpcodeField.squeeze : OpcodeField.Statement .squeeze := opcField_wordOf ..
theorem OpcodeField.fastsqz (k : BitVec 16) : OpcodeField.Statement (.fastsqz k) := opcField_wordOf ..
theorem OpcodeField.ksxor (d : List Byte) : OpcodeField.Statement (.ksxor d) := opcField_wordOf ..
theorem OpcodeField.permute : OpcodeField.Statement .permute := opcField_wordOf ..
theorem OpcodeField.rdlane (i : Fin 25) : OpcodeField.Statement (.rdlane i) := opcField_wordOf ..
theorem OpcodeField.wrlane (i : Fin 25) (v : Lane) : OpcodeField.Statement (.wrlane i v) := opcField_wordOf ..
theorem OpcodeField.dispose : OpcodeField.Statement .dispose := opcField_wordOf ..
theorem OpcodeField.stat : OpcodeField.Statement .stat := opcField_wordOf ..

/-! ### ColumnKept: the encoded word keeps its opcode's column of R95, and PLEN is the payload's length (R94). -/

def ColumnKept.Statement (i : Instr) : Prop :=
  i.wf = true → columnOk i.opcode (encode i).1 = true ∧ (encode i).2.length = plen (encode i).1

theorem ColumnKept.init (r c o : Word32) : ColumnKept.Statement (.init r c o) := by
  simp [ColumnKept.Statement, encode, columnOk, Instr.opcode, plen, Opcode.ofByte, Opcode.hasPayload]
theorem ColumnKept.absorb (d : List Byte) : ColumnKept.Statement (.absorb d) := by
  intro h
  rw [wf_absorb] at h
  simp [encode, columnOk, Instr.opcode, plen, Opcode.ofByte, Opcode.hasPayload]
  omega
theorem ColumnKept.digest (d : List Byte) : ColumnKept.Statement (.digest d) := by
  intro h
  rw [wf_digest] at h
  simp [encode, columnOk, Instr.opcode, plen, Opcode.ofByte, Opcode.hasPayload]
  omega
theorem ColumnKept.squeeze : ColumnKept.Statement .squeeze := by
  simp [ColumnKept.Statement, encode, columnOk, Instr.opcode, plen, Opcode.ofByte, Opcode.hasPayload]
theorem ColumnKept.fastsqz (k : BitVec 16) : ColumnKept.Statement (.fastsqz k) := by
  simp [ColumnKept.Statement, encode, columnOk, Instr.opcode, plen, Opcode.ofByte, Opcode.hasPayload]
theorem ColumnKept.ksxor (d : List Byte) : ColumnKept.Statement (.ksxor d) := by
  intro h
  rw [wf_ksxor] at h
  simp [encode, columnOk, Instr.opcode, plen, Opcode.ofByte, Opcode.hasPayload]
  omega
theorem ColumnKept.permute : ColumnKept.Statement .permute := by
  simp [ColumnKept.Statement, encode, columnOk, Instr.opcode, plen, Opcode.ofByte, Opcode.hasPayload]
theorem ColumnKept.rdlane (i : Fin 25) : ColumnKept.Statement (.rdlane i) := by
  simp [ColumnKept.Statement, encode, columnOk, Instr.opcode, plen, Opcode.ofByte, Opcode.hasPayload]
theorem ColumnKept.wrlane (i : Fin 25) (v : Lane) : ColumnKept.Statement (.wrlane i v) := by
  simp [ColumnKept.Statement, encode, columnOk, Instr.opcode, plen, Opcode.ofByte, Opcode.hasPayload]
theorem ColumnKept.dispose : ColumnKept.Statement .dispose := by
  simp [ColumnKept.Statement, encode, columnOk, Instr.opcode, plen, Opcode.ofByte, Opcode.hasPayload]
theorem ColumnKept.stat : ColumnKept.Statement .stat := by
  simp [ColumnKept.Statement, encode, columnOk, Instr.opcode, plen, Opcode.ofByte, Opcode.hasPayload]

end Sys2Proof.Laws
end

