-- ==== Sys2Proof/Laws/Permutation.lean ====
section
/-! SUPPORT. The coordinate view of the lane file: a lane of `lanesOf f` is `f` at its coordinates, and the lanes at all
coordinates determine the file (10_state.md R22). -/

namespace Sys2Proof.Machine

theorem laneAt_mod (A : Lanes) (x y : Nat) : laneAt A (x % 5) (y % 5) = laneAt A x y := by
  simp [laneAt]

@[simp] theorem getElem_lanesOf (f : Nat → Nat → Lane) (n : Nat) (h : n < 25) :
    (lanesOf f)[n] = f (n % 5) (n / 5) := by
  simp [lanesOf]

@[simp] theorem laneAt_lanesOf (f : Nat → Nat → Lane) (x y : Nat) : laneAt (lanesOf f) x y = f (x % 5) (y % 5) := by
  simp only [laneAt, getElem_lanesOf]
  congr 1 <;> omega

theorem getElem_eq_laneAt (A : Lanes) (n : Nat) (h : n < 25) : A[n] = laneAt A (n % 5) (n / 5) := by
  simp only [laneAt]
  congr 1
  omega

/-- Two lane files with the same lane at every coordinate are equal. -/
theorem lanes_ext {A B : Lanes} (h : ∀ x y, x < 5 → y < 5 → laneAt A x y = laneAt B x y) : A = B := by
  ext n hn
  rw [getElem_eq_laneAt A n hn, getElem_eq_laneAt B n hn, h (n % 5) (n / 5) (by omega) (by omega)]

@[simp] theorem rot_mod (x y : Nat) : rot (x % 5) (y % 5) = rot x y := by simp [rot]

theorem rot_lt (x y : Nat) : rot x y < 64 := by
  have h : ∀ n : Fin 25, rotTable[n] < 64 := by decide
  exact h ⟨x % 5 + 5 * (y % 5), by omega⟩

end Sys2Proof.Machine
end

