-- ==== Sys2Proof/Machine/Assembler.lean ====
section
/-! DEFINITION. The assembler of 30_encoding.md R99, with the pseudo-instructions of R100: one line of text, as a list of
characters, to the commands it stands for. What R99 leaves to the text (blanks, letter case, an empty line) is fixed here;
log entry 14. It is host text: the engine never sees it. -/

namespace Sys2Proof.Machine

/-- Why the assembler refuses a line. -/
inductive AsmError where
  /-- The line is not of the form R99 gives. -/
  | malformed
  /-- The mnemonic is none of R95's and R100's (R99). -/
  | unknownMnemonic
  /-- An integer is outside its operand's range (R99). -/
  | outOfRange
  /-- A data literal is longer than one command's payload (R99). -/
  | literalTooLong
deriving DecidableEq, Repr

/-- The pieces a line is made of. -/
inductive Token where
  | name (cs : List Char)
  | int (n : Nat)
  | bytes (bs : List Byte)
  | comma | plus | lparen | rparen
deriving DecidableEq, Repr

def quoteChar : Char := Char.ofNat 34
def backslashChar : Char := Char.ofNat 92
def isBlank (c : Char) : Bool := c == ' ' || c == Char.ofNat 9

/-- The value of a hexadecimal digit. -/
def hexDigit (c : Char) : Option Nat :=
  let n := c.toNat
  if 48 ≤ n ∧ n ≤ 57 then some (n - 48)
  else if 97 ≤ n ∧ n ≤ 102 then some (n - 87)
  else if 65 ≤ n ∧ n ≤ 70 then some (n - 55)
  else none

/-- Digits of a number in the given base, most significant first. -/
def digitsValue (base : Nat) : Nat → List Char → Option Nat
  | acc, [] => some acc
  | acc, c :: cs =>
    match hexDigit c with
    | some d => if d < base then digitsValue base (acc * base + d) cs else none
    | none => none

/-- A decimal or `0x` integer (R99). -/
def intLiteral (cs : List Char) : Option Nat :=
  match cs with
  | [] => none
  | '0' :: 'x' :: ds => if ds.isEmpty then none else digitsValue 16 0 ds
  | ds => digitsValue 10 0 ds

/-- The text after an opening quote: its ASCII bytes up to the closing quote, a quote escaped by a backslash, and the rest
of the line (R99). -/
def textLiteral : List Char → List Byte → Option (List Byte × List Char)
  | [], _ => none
  | c :: cs, acc =>
    if c = quoteChar then some (acc.reverse, cs)
    else if c.toNat ≥ 128 then none
    else match c == backslashChar, cs with
      | true, d :: ds =>
        if d = quoteChar then textLiteral ds (BitVec.ofNat 8 d.toNat :: acc)
        else textLiteral (d :: ds) (BitVec.ofNat 8 c.toNat :: acc)
      | _, ds => textLiteral ds (BitVec.ofNat 8 c.toNat :: acc)

/-- The text after `x"`: pairs of hexadecimal digits up to the closing quote, first byte first (R99). -/
def hexLiteral : List Char → List Byte → Option (List Byte × List Char)
  | [], _ => none
  | [c], acc => if c = quoteChar then some (acc.reverse, []) else none
  | c :: d :: cs, acc =>
    if c = quoteChar then some (acc.reverse, d :: cs)
    else match hexDigit c, hexDigit d with
      | some h, some l => hexLiteral cs (BitVec.ofNat 8 (16 * h + l) :: acc)
      | _, _ => none

/-- The tokens of a line, up to a comment's `;` (R99). `fuel` bounds their number. -/
def lexLine : Nat → List Char → Except AsmError (List Token)
  | 0, cs => if cs.isEmpty then .ok [] else .error .malformed
  | fuel + 1, cs =>
    let after (t : Token) (rest : List Char) : Except AsmError (List Token) :=
      match lexLine fuel rest with
      | .ok ts => .ok (t :: ts)
      | .error e => .error e
    match cs with
    | [] => .ok []
    | c :: rest =>
      if isBlank c then lexLine fuel rest
      else if c = ';' then .ok []
      else if c = ',' then after .comma rest
      else if c = '+' then after .plus rest
      else if c = '(' then after .lparen rest
      else if c = ')' then after .rparen rest
      else if c = quoteChar then
        match textLiteral rest [] with
        | some (bs, rest') => after (.bytes bs) rest'
        | none => .error .malformed
      else if c = 'x' ∧ rest.head? = some quoteChar then
        match hexLiteral rest.tail [] with
        | some (bs, rest') => after (.bytes bs) rest'
        | none => .error .malformed
      else if c.isAlphanum then
        let word := c :: rest.takeWhile Char.isAlphanum
        let rest' := rest.dropWhile Char.isAlphanum
        if c.isDigit then
          match intLiteral word with
          | some n => after (.int n) rest'
          | none => .error .malformed
        else after (.name word) rest'
      else .error .malformed

/-- An operand: an integer, or the bytes of a data literal. -/
inductive Operand where
  | int (n : Nat)
  | data (bs : List Byte)
deriving DecidableEq, Repr

/-- The name of the zero-bytes item `zeros(k)` (R99). -/
def zerosName : List Char := "zeros".toList

/-- One item joined to the bytes of the items after it. -/
def joinItem (bs : List Byte) (rest : Except AsmError (List Byte)) : Except AsmError (List Byte) :=
  match rest with
  | .ok cs => .ok (bs ++ cs)
  | .error e => .error e

/-- A data literal: items joined by `+`, each a quoted literal or `zeros(k)` (R99). -/
def dataLiteral : List Token → Except AsmError (List Byte)
  | .bytes bs :: ts =>
    match ts with
    | [] => .ok bs
    | .plus :: us => joinItem bs (dataLiteral us)
    | _ => .error .malformed
  | .name n :: .lparen :: .int k :: .rparen :: ts =>
    if n = zerosName then
      match ts with
      | [] => .ok (List.replicate k 0)
      | .plus :: us => joinItem (List.replicate k 0) (dataLiteral us)
      | _ => .error .malformed
    else .error .malformed
  | _ => .error .malformed

/-- One operand's tokens. -/
def parseOperand (ts : List Token) : Except AsmError Operand :=
  match ts with
  | [.int n] => .ok (.int n)
  | ts =>
    match dataLiteral ts with
    | .ok bs => .ok (.data bs)
    | .error e => .error e

/-- The tokens between commas. -/
def splitCommas : List Token → List (List Token)
  | [] => [[]]
  | t :: ts =>
    match t, splitCommas ts with
    | .comma, groups => [] :: groups
    | t, g :: groups => (t :: g) :: groups
    | t, [] => [[t]]

/-- Every operand of a line, in order. -/
def parseOperands : List (List Token) → Except AsmError (List Operand)
  | [] => .ok []
  | g :: gs =>
    match parseOperand g, parseOperands gs with
    | .ok o, .ok os => .ok (o :: os)
    | .error e, _ => .error e
    | _, .error e => .error e

/-- The mnemonics of R95 and R100. -/
inductive Mnemonic where
  | real (op : Opcode)
  | nop | absorbl | digestl | fastsqzl | hash | keystream | ksopen | confirm | ldstate | ststate
deriving DecidableEq, Repr

/-- One spelling. -/
def spelled (text : String) (m : Mnemonic) : List Char × Mnemonic := (text.toList, m)

/-- How the commands are spelled (R95). -/
def commandTable : List (List Char × Mnemonic) :=
  [spelled "INIT" (.real .init), spelled "ABSORB" (.real .absorb), spelled "DIGEST" (.real .digest),
   spelled "SQUEEZE" (.real .squeeze), spelled "FASTSQZ" (.real .fastsqz), spelled "KSXOR" (.real .ksxor),
   spelled "PERMUTE" (.real .permute), spelled "RDLANE" (.real .rdlane), spelled "WRLANE" (.real .wrlane),
   spelled "DISPOSE" (.real .dispose), spelled "STAT" (.real .stat)]

/-- How the pseudo-instructions are spelled (R100). -/
def pseudoTable : List (List Char × Mnemonic) :=
  [spelled "NOP" .nop, spelled "ABSORBL" .absorbl, spelled "DIGESTL" .digestl,
   spelled "FASTSQZL" .fastsqzl, spelled "HASH" .hash, spelled "KEYSTREAM" .keystream,
   spelled "KSOPEN" .ksopen, spelled "CONFIRM" .confirm, spelled "LDSTATE" .ldstate,
   spelled "STSTATE" .ststate]

/-- How each mnemonic is spelled (R95, R100). -/
def mnemonicTable : List (List Char × Mnemonic) := commandTable ++ pseudoTable

/-- A test of an operand's range, then the commands (R99). -/
def inRange (ok : Bool) (is : List Instr) : Except AsmError (List Instr) :=
  if ok then .ok is else .error .outOfRange

/-- A data literal that is one command's payload (R99). -/
def onePayload (bs : List Byte) (i : Instr) : Except AsmError (List Instr) :=
  if bs.length ≤ maxPayload then .ok [i] else .error .literalTooLong

/-- INIT's integers are 32-bit (R93). -/
def triple (r c o : Nat) : Bool := r < 2 ^ 32 && c < 2 ^ 32 && o < 2 ^ 32

/-- An integer as one of INIT's operands. -/
def word32 (n : Nat) : Word32 := BitVec.ofNat 32 n

/-- 25 integers below 2^64 as a lane file (R100's LDSTATE). -/
def lanesOfInts (os : List Operand) : Option Lanes :=
  let vs := os.filterMap fun o => match o with
    | .int n => if n < 2 ^ 64 then some (BitVec.ofNat 64 n) else none
    | .data _ => none
  if h : vs.length = 25 then (if os.length = 25 then some ⟨vs.toArray, by simpa using h⟩ else none) else none

/-- A line without operands. -/
def withNone (os : List Operand) (is : List Instr) : Except AsmError (List Instr) :=
  match os with
  | [] => .ok is
  | _ => .error .malformed

/-- A line whose operand is one integer. -/
def withInt (os : List Operand) (f : Nat → Except AsmError (List Instr)) : Except AsmError (List Instr) :=
  match os with
  | [.int n] => f n
  | _ => .error .malformed

/-- A line whose operand is one data literal. -/
def withData (os : List Operand) (f : List Byte → Except AsmError (List Instr)) : Except AsmError (List Instr) :=
  match os with
  | [.data d] => f d
  | _ => .error .malformed

/-- A line whose operands are two data literals. -/
def withTwoData (os : List Operand) (f : List Byte → List Byte → Except AsmError (List Instr)) :
    Except AsmError (List Instr) :=
  match os with
  | .data d :: rest => withData rest (f d)
  | _ => .error .malformed

/-- A line whose operands start with r, c and o, which are 32-bit; `f` has the operands after them. -/
def withSpec (os : List Operand) (f : Word32 → Word32 → Word32 → List Operand → Except AsmError (List Instr)) :
    Except AsmError (List Instr) :=
  match os with
  | .int r :: .int c :: .int o :: rest =>
    match f (word32 r) (word32 c) (word32 o) rest with
    | .ok is => inRange (triple r c o) is
    | .error e => .error e
  | _ => .error .malformed

/-- RDLANE's operand (R99). -/
def assembleRdlane (i : Nat) : Except AsmError (List Instr) :=
  if h : i < 25 then .ok [.rdlane ⟨i, h⟩] else .error .outOfRange

/-- WRLANE's operands (R99). -/
def assembleWrlane (os : List Operand) : Except AsmError (List Instr) :=
  match os with
  | .int i :: rest => withInt rest fun v =>
    if h : i < 25 then inRange (v < 2 ^ 64) [.wrlane ⟨i, h⟩ (BitVec.ofNat 64 v)] else .error .outOfRange
  | _ => .error .malformed

/-- CONFIRM's operands after r, c and o: P, and N at least 1 (R100). -/
def assembleConfirm (r c o : Word32) (os : List Operand) : Except AsmError (List Instr) :=
  match os with
  | .data P :: rest => withInt rest fun N => inRange (1 ≤ N) (pseudoConfirm r c o P N)
  | _ => .error .malformed

/-- The command of one of R95's mnemonics with its operands (R99). -/
def assembleReal (op : Opcode) (os : List Operand) : Except AsmError (List Instr) :=
  match op with
  | .init => withSpec os fun r c o rest => withNone rest [.init r c o]
  | .absorb => withData os fun d => onePayload d (.absorb d)
  | .digest => if os.isEmpty then .ok [.digest []] else withData os fun d => onePayload d (.digest d)
  | .squeeze => withNone os [.squeeze]
  | .fastsqz => withInt os fun k => inRange (k ≤ 65535) [.fastsqz (BitVec.ofNat 16 k)]
  | .ksxor => withData os fun d => onePayload d (.ksxor d)
  | .permute => withNone os [.permute]
  | .rdlane => withInt os assembleRdlane
  | .wrlane => assembleWrlane os
  | .dispose => withNone os [.dispose]
  | .stat => withNone os [.stat]

/-- LDSTATE's 25 integers (R100). -/
def assembleLdstate (os : List Operand) : Except AsmError (List Instr) :=
  match lanesOfInts os with
  | some v => .ok (pseudoLdstate v)
  | none => .error .outOfRange

/-- The commands of a mnemonic with its operands (R99, R100). -/
def assembleMnemonic (m : Mnemonic) (os : List Operand) : Except AsmError (List Instr) :=
  match m with
  | .real op => assembleReal op os
  | .nop => withNone os pseudoNop
  | .absorbl => withData os fun d => .ok (pseudoAbsorbl d)
  | .digestl => withData os fun d => .ok (pseudoDigestl d)
  | .fastsqzl => withInt os fun k => .ok (pseudoFastsqzl k)
  | .hash => withSpec os fun r c o rest => withData rest fun d => .ok (pseudoHash r c o d)
  | .keystream => withInt os fun L => inRange (L ≤ maxPayload) (pseudoKeystream L)
  | .ksopen => withSpec os fun r c o rest => withTwoData rest fun P K => .ok (pseudoKsopen r c o P K)
  | .confirm => withSpec os assembleConfirm
  | .ldstate => assembleLdstate os
  | .ststate => withNone os pseudoStstate

/-- One line of assembly to its commands; a line without a mnemonic stands for none (R99, R100). -/
def assembleLine (line : List Char) : Except AsmError (List Instr) :=
  match lexLine line.length line with
  | .error e => .error e
  | .ok [] => .ok []
  | .ok (.name m :: ts) =>
    match mnemonicTable.lookup m with
    | none => .error .unknownMnemonic
    | some mn =>
      if ts.isEmpty then assembleMnemonic mn []
      else match parseOperands (splitCommas ts) with
        | .ok os => assembleMnemonic mn os
        | .error e => .error e
  | .ok (_ :: _) => .error .malformed

/-- A program: the commands of its lines, in order (R99). -/
def assembleProgram : List (List Char) → Except AsmError (List Instr)
  | [] => .ok []
  | line :: lines =>
    match assembleLine line, assembleProgram lines with
    | .ok is, .ok js => .ok (is ++ js)
    | .error e, _ => .error e
    | _, .error e => .error e


end Sys2Proof.Machine
end

