-- ==== Sys2Proof/Tests/Slice0.lean ====
section
/-! SUPPORT. Tests. Expected values come from spec/95_test_vectors.md (named in each comment) or from the spec's encodings
written out by hand; the last section shows, for every statement with hypotheses, values that meet them. -/

namespace Sys2Proof.Tests

-- One theorem at a time: side by side they hold one thread stack each, more memory than the check allows.
set_option Elab.async false

open Sys2Proof.Machine Sys2Proof.Safety

/-! ### Well-formedness: an ill-formed term for each check -/

theorem test_wf_refuses_long_absorb : (Instr.absorb (List.replicate 65536 0)).wf = false := by
  rw [Bool.eq_false_iff, ne_eq, wf_absorb, List.length_replicate]; decide
theorem test_wf_refuses_long_digest : (Instr.digest (List.replicate 65536 0)).wf = false := by
  rw [Bool.eq_false_iff, ne_eq, wf_digest, List.length_replicate]; decide
theorem test_wf_refuses_long_ksxor : (Instr.ksxor (List.replicate 65536 0)).wf = false := by
  rw [Bool.eq_false_iff, ne_eq, wf_ksxor, List.length_replicate]; decide
theorem test_wf_longest_absorb : (Instr.absorb (List.replicate 65535 0)).wf = true := by
  rw [wf_absorb, List.length_replicate]

/-! ### Decoding: words written out bit by bit, LEN RSV IDX OPC (R91, V10) -/

theorem test_decode_init :
    decode 0b0000000000001100_000_00000_00000001 [0x00, 0x04, 0, 0, 0x40, 0x02, 0, 0, 0x00, 0x01, 0, 0] =
      .ok (.init 1024 576 256) := by decide
theorem test_decode_absorb : decode 0b0000000000000010_000_00000_00000010 [0x61, 0x62] = .ok (.absorb [0x61, 0x62]) := by
  decide
theorem test_decode_digest : decode 0b0000000000000001_000_00000_00000011 [0x63] = .ok (.digest [0x63]) := by decide
theorem test_decode_squeeze : decode 0b0000000000000000_000_00000_00000100 [] = .ok .squeeze := by decide
theorem test_decode_fastsqz : decode 0b0000001111100110_000_00000_00000101 [] = .ok (.fastsqz 998) := by decide
theorem test_decode_ksxor : decode 0b0000000000000001_000_00000_00000110 [0xFF] = .ok (.ksxor [0xFF]) := by decide
theorem test_decode_permute : decode 0b0000000000000000_000_00000_00000111 [] = .ok .permute := by decide
theorem test_decode_rdlane : decode 0b0000000000000000_000_11000_00001000 [] = .ok (.rdlane 24) := by decide
theorem test_decode_wrlane :
    decode 0b0000000000001000_000_00011_00001001 [0xEF, 0xCD, 0xAB, 0x89, 0x67, 0x45, 0x23, 0x01] =
      .ok (.wrlane 3 0x0123456789ABCDEF) := by decide
theorem test_decode_dispose : decode 0b0000000000000000_000_00000_00001010 [] = .ok .dispose := by decide
theorem test_decode_stat : decode 0b0000000000000000_000_00000_00001011 [] = .ok .stat := by decide
theorem test_decode_rejects_by_name :
    decode 0x00000000 [] = .error .illegalOpcode ∧ decode 0xFFFF00FF [] = .error .illegalOpcode ∧
    decode 0x00001908 [] = .error (.badOperand .rdlane) ∧ decode 0x12340007 [] = .error (.badOperand .permute) ∧
    decode 0x0000E004 [] = .error (.badOperand .squeeze) ∧ decode 0x00010002 [] = .error .payloadLength := by decide
/-- The bytes of `INIT 1024, 576, 256` on the channel (V10). -/
theorem test_channel_init : encodeBytes (.init 1024 576 256) =
    [0x01, 0x00, 0x0C, 0x00, 0x00, 0x04, 0, 0, 0x40, 0x02, 0, 0, 0x00, 0x01, 0, 0] := by decide
theorem test_table_word_rdlane : decodeTableWord 32 0x00001808 = some (.rdlane 24) := by decide +kernel
theorem test_table_word_init : decodeTableWord 32 0x000C0001 = some (.init 0 0 0) := by decide +kernel

/-! ### The permutation's steps (V2) -/

def zeroLanes : Lanes := Vector.replicate 25 0

/-- θ with only L7 set: the neighbour columns, and the wrap of the rotation. -/
theorem test_theta_wrap :
    (theta (zeroLanes.set 7 0x8000000000000000)).toList =
      [0, 1, 0, 0x8000000000000000, 0, 0, 1, 0x8000000000000000, 0x8000000000000000, 0, 0, 1, 0, 0x8000000000000000, 0,
       0, 1, 0, 0x8000000000000000, 0, 0, 1, 0, 0x8000000000000000, 0] := by decide +kernel
/-- ρ with every lane 1 gives 2^ROT[n]. -/
theorem test_rho_ones :
    (rho (Vector.replicate 25 1)).toList.take 8 =
      [0x1, 0x2, 0x4000000000000000, 0x10000000, 0x8000000, 0x1000000000, 0x100000000000, 0x40] := by decide +kernel
/-- π with LANE[n] = n gives the source table of R133. -/
theorem test_pi_table :
    (pi (Vector.ofFn fun n => BitVec.ofNat 64 n.val)).toList =
      [0, 6, 12, 18, 24, 3, 9, 10, 16, 22, 1, 7, 13, 19, 20, 4, 5, 11, 17, 23, 2, 8, 14, 15, 21] := by decide +kernel
/-- χ on row 0 with L0 = 0xFF and L2 = 0x0F. -/
theorem test_chi_row :
    (chi ((zeroLanes.set 0 0xFF).set 2 0x0F)).toList.take 5 = [0xF0, 0x0, 0xF, 0xFF, 0x0] := by decide +kernel
/-- ι of the zero state in round 23. -/
theorem test_iota_last : (iota zeroLanes 23)[0] = 0x8000000080008008 := by decide +kernel
/-- LANE[0] and LANE[1] after rounds 0 and 1 of the zero state. -/
theorem test_two_rounds :
    (keccakRound (keccakRound zeroLanes 0) 1)[0] = 0x0000000000008083 ∧
    (keccakRound (keccakRound zeroLanes 0) 1)[1] = 0x0000100000000000 := by decide +kernel

/-! ### Padding (V3) -/

theorem test_pad_merged : pad [1, 2, 3] 4 = [1, 2, 3, 0x81] := by decide
theorem test_pad_two_bytes : pad [1, 2] 4 = [1, 2, 0x01, 0x80] := by decide
theorem test_pad_whole_block : pad [1, 2, 3, 4] 4 = [1, 2, 3, 4, 0x01, 0, 0, 0x80] := by decide
theorem test_unpad_trailing_zero : unpad (pad [5, 0, 0] 8) = some [5, 0, 0] := by decide

/-! ### One step of each command, from small states -/

/-- A state whose engine is `e`, with MAX_OUT_BYTES as the spec's vectors have it. -/
def stateOf (e : Engine) : State := { State.resetWith 65536 with engine := e }

/-- Just after `INIT r, c, o`. -/
def absorbingAt (r c o : Word32) : State := stateOf (Engine.reset.startSession r c o)

/-- A session in SQUEEZING with zero lanes and KSBLK = 10, 11, 12, 13 at cursor `k`; R = 128, n = 4. -/
def squeezingAt (k : Nat) : State :=
  stateOf { Engine.reset.startSession 1024 576 32 with phase := .squeezing, ksblk := [10, 11, 12, 13], ksptr := k }

/-- One command of the host, taken by one step. -/
def stepWith (w : Word32) (p : List Byte) (s : State) : Host.Outcome State Fault Refusal :=
  step { s with actions := [.command w p] }

def lastStatus : Host.Outcome State Fault Refusal → Option Word32
  | .next t => t.responses.getLast?.map (·.status)
  | .fault _ => none
  | .refused _ => none

def lastBytes : Host.Outcome State Fault Refusal → Option (List Byte)
  | .next t => lastData t
  | .fault _ => none
  | .refused _ => none

def engineAfter : Host.Outcome State Fault Refusal → Option Engine
  | .next t => some t.engine
  | .fault _ => none
  | .refused _ => none

/-- V9 E22: o = 8·MAX_OUT_BYTES is accepted. -/
theorem test_init_largest_output :
    lastStatus (stepWith 0x000C0001 [8, 0, 0, 0, 0x38, 0x06, 0, 0, 0, 0, 0x08, 0] (State.resetWith 65536)) =
      some 0x00000001 := by
  simp only [stepWith, step, takeAction, perform, execute,
    show decode 0x000C0001 [8, 0, 0, 0, 0x38, 0x06, 0, 0, 0, 0, 0x08, 0] = .ok (.init 8 1592 524288) by decide]
  rfl
/-- V9 E17: no 32-bit wrap. -/
theorem test_init_no_wrap :
    lastStatus (stepWith 0x000C0001 [0xFF, 0xFF, 0xFF, 0xFF, 0x41, 0x06, 0, 0, 0, 1, 0, 0] (State.resetWith 65536)) =
      some 0x01000104 := by decide +kernel
/-- R202's example: one byte pending. -/
theorem test_absorb_pendlen : lastStatus (stepWith 0x00010002 [0x61] (absorbingAt 1088 512 256)) = some 0x00010001 := by
  decide +kernel
/-- V9 E32: update after digest. -/
theorem test_absorb_after_digest : lastStatus (stepWith 0x00010002 [0x61] (squeezingAt 0)) = some 0x05000506 := by
  decide +kernel
/-- V9 E6's sibling: DIGEST in UNINIT. -/
theorem test_digest_uninit : lastStatus (stepWith 0x00000003 [] (State.resetWith 65536)) = some 0x04000404 := by
  decide +kernel
/-- V9 E23. -/
theorem test_squeeze_wrong_phase : lastStatus (stepWith 0x00000004 [] (absorbingAt 1024 576 256)) = some 0x05000505 := by
  decide +kernel
/-- R206: the cursor goes back to 0. -/
theorem test_squeeze_cursor : (engineAfter (stepWith 0x00000004 [] (squeezingAt 3))).map (·.ksptr) = some 0 := by
  decide +kernel
/-- R208: FASTSQZ 1 exhausts the block and leaves KSBLK. -/
theorem test_fastsqz_exhausts :
    (engineAfter (stepWith 0x00010005 [] (squeezingAt 1))).map (fun e => (e.ksptr, e.ksblk)) =
      some (4, [10, 11, 12, 13]) := by decide +kernel
/-- V9 E35: FASTSQZ 0 has no effect. -/
theorem test_fastsqz_zero : (engineAfter (stepWith 0x00000005 [] (squeezingAt 1))) = some (squeezingAt 1).engine := by
  decide +kernel
/-- R241: bytes of the current block from the cursor on, no refill at the end of the block (R243). -/
theorem test_ksxor_current_block :
    lastBytes (stepWith 0x00030006 [0xFF, 0, 0] (squeezingAt 1)) = some [0xF4, 12, 13] := by decide +kernel
theorem test_ksxor_lazy_refill :
    (engineAfter (stepWith 0x00030006 [0xFF, 0, 0] (squeezingAt 1))).map (fun e => (e.ksptr, e.lanes)) =
      some (4, zeroLanes) := by decide +kernel
/-- V9 E8. -/
theorem test_permute_uninit : lastStatus (stepWith 0x00000007 [] (State.resetWith 65536)) = some 0x04000404 := by
  decide +kernel
/-- P3 step 8. -/
theorem test_rdlane_bytes :
    lastBytes (stepWith 0x00000308 [] (stateOf
      { Engine.reset.startSession 1024 576 256 with lanes := zeroLanes.set 3 0x0123456789ABCDEF })) =
      some [0xef, 0xcd, 0xab, 0x89, 0x67, 0x45, 0x23, 0x01] := by decide +kernel
/-- V9 E26: lane 25 does not exist. -/
theorem test_rdlane_25 : lastStatus (stepWith 0x00001908 [] (absorbingAt 1024 576 256)) = some 0x03000305 := by
  decide +kernel
/-- P3 step 7: the lane holds the value, its neighbours nothing. -/
theorem test_wrlane_value :
    (engineAfter (stepWith 0x00080309 [0xef, 0xcd, 0xab, 0x89, 0x67, 0x45, 0x23, 0x01] (absorbingAt 1024 576 256))).map
      (fun e => e.lanes) = some (zeroLanes.set 3 0x0123456789ABCDEF) := by decide +kernel
/-- V9 E27: LEN 4, the four bytes consumed. -/
theorem test_wrlane_short : lastStatus (stepWith 0x00040309 [1, 2, 3, 4] (absorbingAt 1024 576 256)) = some 0x03000305 := by
  decide +kernel

/-- An engine locked by WRONG_PHASE in ABSORBING with "abc" pending (V9's lock sequence after step 2). -/
def lockedAbc : State :=
  stateOf { Engine.reset.startSession 1024 576 256 with
    pending := [0x61, 0x62, 0x63], fault := true, cause := .err .wrongPhase, last := .err .wrongPhase }

/-- V9 lock sequence, step 8. -/
theorem test_dispose_clears_lock : lastStatus (stepWith 0x0000000A [] lockedAbc) = some 0x00000000 := by decide +kernel
/-- V9 lock sequence, step 7: DISPOSE can fail, in LAST only. -/
theorem test_dispose_bad_operand : lastStatus (stepWith 0x0001000A [0] lockedAbc) = none ∧
    lastStatus (stepWith 0x0001000A [] lockedAbc) = some 0x03030505 := by decide +kernel
/-- V9 lock sequence, step 5. -/
theorem test_stat_locked : lastStatus (stepWith 0x0000000B [] lockedAbc) = some 0x00030505 := by decide +kernel
/-- V9 E29. -/
theorem test_stat_rsv : lastStatus (stepWith 0x0000E00B [] (absorbingAt 1024 576 256)) = some 0x03000305 := by
  decide +kernel
/-- V9 lock sequence, steps 3 and 4: the lock is checked before the opcode. -/
theorem test_lock_first : lastStatus (stepWith 0x00010002 [0x64] lockedAbc) = some 0x06030505 ∧
    lastStatus (stepWith 0x000000FF [] lockedAbc) = some 0x06030505 := by decide +kernel
/-- V9 E5: ILLEGAL_OPCODE before BAD_OPERAND. -/
theorem test_illegal_before_bad : lastStatus (stepWith 0x0000200C [] (State.resetWith 65536)) = some 0x02000204 := by
  decide +kernel
/-- R190: one 9-byte block; byte 8 is lane 1's low byte. -/
theorem test_xorBlock_partial_lane :
    (xorBlock zeroLanes [1, 2, 3, 4, 5, 6, 7, 8, 9]).toList.take 3 = [0x0807060504030201, 9, 0] := by decide +kernel
/-- The first instruction after reset is the table word's. -/
theorem test_fetch_word_runs : lastStatus (step (State.reset.withFetchWord 32 0x0000000B)) = some 0x00000000 := by
  decide +kernel

/-! ### The assembler (R99, R100; lines of 95_test_vectors.md) -/

theorem test_asm_init : assembleLine "INIT 1088, 512, 0x100 ; go".toList = .ok [.init 1088 512 256] := by decide +kernel
theorem test_asm_literal :
    assembleLine "DIGEST \"a;b\" + x\"00fF\"+zeros(2)".toList = .ok [.digest [0x61, 0x3b, 0x62, 0, 0xff, 0, 0]] := by
  decide +kernel
theorem test_asm_confirm :
    assembleLine "CONFIRM 1024, 576, 256, \"abc\", 3".toList =
      .ok [.init 1024 576 256, .absorb [0x61, 0x62, 0x63], .digest [], .fastsqz 1, .squeeze] := by decide +kernel
theorem test_asm_refuses :
    assembleLine "RDLANE 25".toList = .error .outOfRange ∧ assembleLine "FOO".toList = .error .unknownMnemonic := by
  decide +kernel

/-! ### Witnesses: values that meet the hypotheses of each statement -/

/-- A session in ABSORBING with R = 2, n = 2, one byte pending. -/
def absorbing2 : State :=
  stateOf { Engine.reset.startSession 16 1584 16 with pending := [7] }

/-- A session in SQUEEZING with R = 2, n = 2, one byte of KSBLK used. -/
def squeezing2 : State :=
  stateOf { Engine.reset.startSession 16 1584 16 with phase := .squeezing, ksblk := [1, 2], ksptr := 1 }

/-- `absorbing2` locked. -/
def locked2 : State :=
  stateOf { absorbing2.engine with fault := true, cause := .err .wrongPhase, last := .err .wrongPhase }

def withActions (s : State) (as : List HostAction) : State := { s with actions := as }

theorem inv_reset : Inv (State.resetWith 65536) := by constructor <;> decide
theorem inv_absorbing2 : Inv absorbing2 := by constructor <;> decide
theorem inv_squeezing2 : Inv squeezing2 := by constructor <;> decide
theorem inv_locked2 : Inv locked2 := by constructor <;> decide
theorem inv_withActions {s : State} (h : Inv s) (as : List HostAction) : Inv (withActions s as) :=
  ⟨h.1, h.2, h.3, h.4, h.5, h.6, h.7, h.8, h.9⟩
theorem live_absorbing2 : Live absorbing2 .absorbing := ⟨inv_absorbing2, rfl, rfl⟩
theorem live_squeezing2 : Live squeezing2 .squeezing := ⟨inv_squeezing2, rfl, rfl⟩

theorem witness_DecodeOfEncodeIsIdentity : (Instr.wrlane 24 5).wf = true ∧ (Instr.absorb [1]).wf = true := by decide
theorem witness_EncodeOfDecodeIsIdentity : decode 0x00001808 [] = .ok (.rdlane 24) := by decide
theorem witness_ChannelBytesDecodeWithRest : (Instr.ksxor [1, 2]).wf = true := by decide
theorem witness_EncodedWordsAsListed : ([1, 2] : List Byte).length ≤ 65535 := by decide
theorem witness_PayloadLengthRule : Inv (withActions absorbing2 [.command 0x00010002 [9]]) ∧
    (withActions absorbing2 [.command 0x00010002 [9]]).actions = .command 0x00010002 [9] :: [] ∧
    ([9] : List Byte).length = plen 0x00010002 := ⟨inv_withActions inv_absorbing2 _, rfl, by decide⟩
theorem witness_ReservedOpcodeRaisesIllegal :
    (0x00000000 : Word32).toNat % 256 = 0 ∧ 0x0C ≤ (0x0000000C : Word32).toNat % 256 ∧
    0x0C ≤ (0xFFFF00FF : Word32).toNat % 256 ∧ absorbing2.engine.fault = false ∧ locked2.engine.fault = true := by decide
theorem witness_BrokenColumnRaisesBadOperand : absorbing2.engine.fault = false ∧
    ([] : List Byte).length = plen 0x00001908 ∧ 1 ≤ (0x00001908 : Word32).toNat % 256 ∧
    (0x00001908 : Word32).toNat % 256 ≤ 0x0B ∧
    brokenColumn 0x08 25 0 0 = true ∧ brokenColumn 0x08 24 0 0 = false ∧
    (0x00001908 : Word32).toNat / 256 % 32 = 25 ∧ (0x00001808 : Word32).toNat / 256 % 32 = 24 := by decide
theorem witness_StepRunsDecodedCommand :
    (withActions absorbing2 [.command 0x0000000B []]).actions = .command 0x0000000B [] :: [] ∧
    decode 0x0000000B [] = .ok .stat := by decide
theorem witness_IdleEngineKeepsState : absorbing2.actions = [] := rfl
theorem witness_RefusedExactlyOnHostViolation :
    (withActions absorbing2 [.command 0x0000000B [1]]).actions = .command 0x0000000B [1] :: [] ∧
    ([1] : List Byte).length ≠ plen 0x0000000B ∧
    (withActions absorbing2 [.reset]).actions = .reset :: [] ∧
    (withActions absorbing2 [.resetDuringCommand]).actions = .resetDuringCommand :: [] := by decide
theorem witness_EveryCommandCompletesWithOneResponse : Inv (withActions absorbing2 [.command 0x000000FF []]) ∧
    ([] : List Byte).length = plen 0x000000FF := ⟨inv_withActions inv_absorbing2 _, by decide⟩
theorem witness_FaultOnlyOutsideInvariant :
    step (withActions (stateOf { Engine.reset with phase := .absorbing }) [.command 0x00000002 []]) =
      .fault .brokenSession := rfl
theorem witness_ReturnedResponsesNeverChange : ∃ t, step (withActions absorbing2 [.command 0x0000000B []]) = .next t :=
  ⟨_, rfl⟩
theorem witness_ResponseDataLengths :
    Inv squeezing2 ∧ (∃ t, execute 0x0000000B [] squeezing2 = .next t ∧ t.engine.last = .ok) ∧
    (∃ t, execute 0x00000002 [] squeezing2 = .next t ∧ t.engine.last ≠ .ok) :=
  ⟨inv_squeezing2, ⟨_, rfl, rfl⟩, ⟨_, rfl, by decide⟩⟩
theorem witness_ResetStateHasInvariant : 1 ≤ 1 := Nat.le_refl 1
theorem witness_StepKeepsInvariant : Inv (withActions absorbing2 [.reset]) ∧
    ∃ t, step (withActions absorbing2 [.reset]) = .next t := ⟨inv_withActions inv_absorbing2 _, _, rfl⟩
theorem witness_ResetSetsEveryPieceOfState : (withActions absorbing2 [.reset]).actions = .reset :: [] := rfl
theorem witness_AbsorbedBlocksThenPending : Inv squeezing2 ∧ squeezing2.engine.fault = false ∧
    legalSpec squeezing2.maxOutBytes (16 : Word32).toNat (1584 : Word32).toNat (16 : Word32).toNat = true :=
  ⟨inv_squeezing2, by decide⟩
theorem witness_StatusWordLayout : absorbing2.engine.pending.length ≤ 198 ∧ Inv absorbing2 ∧
    ∃ t, execute 0x0000000B [] absorbing2 = .next t := ⟨by decide, inv_absorbing2, _, rfl⟩
theorem witness_RaiseLatchesFirstFaultOnly : absorbing2.engine.fault = false ∧ locked2.engine.fault = true := by decide
theorem witness_ChecksDecideInOrder : Inv locked2 ∧ Inv absorbing2 ∧
    firstFailure locked2 0x000000FF [] = some .locked ∧
    firstFailure absorbing2 0x000000FF [] = some (.err .illegalOpcode) ∧
    firstFailure absorbing2 0x0000E00B [] = some (.err .badOperand) ∧
    firstFailure (State.resetWith 1) 0x00000004 [] = some (.err .notInitialised) ∧
    firstFailure absorbing2 0x00000004 [] = some (.err .wrongPhase) ∧
    firstFailure absorbing2 0x000C0001 (List.replicate 12 0) = some (.err .invalidSpec) ∧
    firstFailure absorbing2 0x00000002 [] = none := ⟨inv_locked2, inv_absorbing2, by decide⟩
theorem witness_FailedCommandIsPrecise : ∃ t, execute 0x00000004 [] absorbing2 = .next t ∧ t.engine.last ≠ .ok :=
  ⟨_, rfl, by decide⟩
theorem witness_LockedRefusesAllButDisposeAndStat : locked2.engine.fault = true ∧
    ([] : List Byte).length = plen 0x000000FF ∧ (0x000000FF : Word32).toNat % 256 ≠ 0x0A ∧
    (0x000000FF : Word32).toNat % 256 ≠ 0x0B ∧ Instr.squeeze ≠ .dispose ∧ Instr.squeeze ≠ .stat := by decide
theorem witness_FaultClearedOnlyByDisposeOrReset : locked2.engine.fault = true ∧
    (∃ t, step (withActions locked2 [.reset]) = .next t) ∧
    (∃ t, step (withActions locked2 [.command 0x0000000A []]) = .next t) ∧
    (∃ t, step (withActions locked2 [.command 0x00000004 []]) = .next t) := ⟨rfl, ⟨_, rfl⟩, ⟨_, rfl⟩, ⟨_, rfl⟩⟩
theorem witness_SessionCommandsNeedInit : (State.resetWith 1).engine.phase = .uninit ∧
    (State.resetWith 1).engine.fault = false := ⟨rfl, rfl⟩
theorem witness_WrongPhaseRaised : squeezing2.engine.fault = false ∧ squeezing2.engine.phase = .squeezing ∧
    absorbing2.engine.fault = false ∧ absorbing2.engine.phase = .absorbing := ⟨rfl, rfl, rfl, rfl⟩
theorem witness_PhaseChangesOnlyAsTabled : (∃ t, exec .dispose absorbing2 = .next t ∧ t.engine.last = .ok) ∧
    ∃ t, exec .squeeze absorbing2 = .next t ∧ t.engine.last ≠ .ok := ⟨⟨_, rfl, rfl⟩, ⟨_, rfl, by decide⟩⟩
theorem witness_RegistersWrittenOnlyByTheirWriters :
    ∃ t, exec .dispose absorbing2 = .next t ∧ t.engine.pending ≠ absorbing2.engine.pending ∧
      t.engine.rateBits ≠ absorbing2.engine.rateBits := ⟨_, rfl, by decide⟩
theorem witness_StepMappingsByCoordinates : 4 < 5 ∧ 0 < 5 := by decide
theorem witness_RawAccessResults : absorbing2.engine.fault = false ∧ absorbing2.engine.phase ≠ .uninit := by decide
/-- Each clause at a boundary: R = 1, R = 2 and R = 199, lengths 0, R − 2, R − 1. -/
theorem witness_PaddingLengthAndBoundaryCases :
    ([] : List Byte).length % 1 = 1 - 1 ∧ (List.replicate 198 (0 : Byte)).length % 199 = 199 - 1 ∧
    ([] : List Byte).length % 2 = 2 - 2 ∧ (List.replicate 197 (0 : Byte)).length % 199 = 199 - 2 ∧
    ([] : List Byte).length % 199 = 0 := by simp only [List.length_replicate]; decide
theorem witness_UnpadRecoversMessage : 1 ≤ 199 ∧ 199 - ([] : List Byte).length % 199 ≠ 1 ∧
    2 - ([0] : List Byte).length % 2 = 1 := by decide
theorem witness_XorBlockIsBytewise : ([1, 2] : List Byte).length ≤ 199 ∧ 1 < ([1, 2] : List Byte).length ∧
    ¬ 199 < ([1, 2] : List Byte).length ∧ 199 < 200 := by decide
theorem witness_StateByteWriteThenRead : 199 < 200 ∧ 0 < 200 := by decide
theorem witness_AbsorbBlocksUnrolls : 1 ≤ 2 ∧ 2 ≤ ([1, 2] : List Byte).length ∧ ([1] : List Byte).length < 2 := by decide
theorem witness_ExtractionPasses : 1 ≤ 2 ∧ 1 ≤ 3 ∧ 2 < 3 := by decide
theorem witness_InitStartsSession : squeezing2.engine.fault = false ∧ 0 < (8 : Word32).toNat ∧
    0 < (1592 : Word32).toNat ∧ (8 : Word32).toNat + (1592 : Word32).toNat = 1600 ∧ (8 : Word32).toNat % 8 = 0 ∧
    (524288 : Word32).toNat % 8 = 0 ∧ (524288 : Word32).toNat ≤ 8 * squeezing2.maxOutBytes := by decide
theorem witness_InitLegalOperandsExactly : squeezing2.engine.fault = false ∧
    ((∃ k, 1 ≤ k ∧ k ≤ 199 ∧ (1592 : Word32).toNat = 8 * k) ∧ (8 : Word32).toNat = 1600 - (1592 : Word32).toNat ∧
      (∃ k, 1 ≤ k ∧ k ≤ squeezing2.maxOutBytes ∧ (8 : Word32).toNat = 8 * k)) ∧
    8 * squeezing2.maxOutBytes < (524296 : Word32).toNat ∧
    ¬(∃ k, 1 ≤ k ∧ k ≤ 199 ∧ (1600 : Word32).toNat = 8 * k) :=
  ⟨rfl, ⟨⟨199, by decide⟩, by decide, ⟨1, by decide⟩⟩, by decide, by
    rintro ⟨k, _, h, e⟩
    have : (1600 : Word32).toNat = 1600 := rfl
    omega⟩
theorem witness_InitForgetsThePast : Inv absorbing2 ∧ Inv squeezing2 ∧ absorbing2.maxOutBytes = squeezing2.maxOutBytes ∧
    absorbing2.engine.fault = false ∧ squeezing2.engine.fault = false ∧
    legalSpec absorbing2.maxOutBytes (16 : Word32).toNat (1584 : Word32).toNat (16 : Word32).toNat = true :=
  ⟨inv_absorbing2, inv_squeezing2, rfl, rfl, rfl, by decide⟩
theorem witness_AbsorbResult : Live absorbing2 .absorbing := live_absorbing2
theorem witness_DigestResult : Live absorbing2 .absorbing := live_absorbing2
theorem witness_SqueezeAndFastSqueezeResults : Live squeezing2 .squeezing ∧ 1 ≤ (1 : BitVec 16).toNat :=
  ⟨live_squeezing2, by decide⟩
theorem witness_WorkPerCommandInEvaluationsOfF : Inv squeezing2 ∧ Inv absorbing2 ∧
    (∃ t, exec .squeeze squeezing2 = .next t ∧ t.engine.last = .ok) ∧
    (∃ t, exec (.absorb [1]) absorbing2 = .next t ∧ t.engine.last = .ok) ∧
    (∃ t, exec (.digest []) absorbing2 = .next t ∧ t.engine.last = .ok) :=
  ⟨inv_squeezing2, inv_absorbing2, ⟨_, rfl, rfl⟩, ⟨_, rfl, rfl⟩, ⟨_, rfl, rfl⟩⟩
theorem witness_FastSqueezeCountLaw : Live squeezing2 .squeezing ∧ 1 ≤ (1 : BitVec 16).toNat ∧
    (65534 : BitVec 16).toNat + (1 : BitVec 16).toNat = (65535 : BitVec 16).toNat := ⟨live_squeezing2, by decide, by decide⟩
theorem witness_DisposeIsSoftReset : (0x0001000A : Word32).toNat % 256 = 0x0A ∧ (0x0001000A : Word32) ≠ 0x0000000A := by
  decide
theorem witness_DigestEqualsKeccakSponge : Inv locked2 ∧ Inv squeezing2 ∧ squeezing2.engine.fault = false ∧
    legalSpec squeezing2.maxOutBytes (1592 : Word32).toNat (8 : Word32).toNat (8 : Word32).toNat = true ∧
    ∀ i ∈ [Instr.absorb [1], .stat, .absorb []], i.opcode ∈ [Opcode.absorb, .stat] :=
  ⟨inv_locked2, inv_squeezing2, rfl, by decide, by decide⟩
theorem witness_StreamingEquivalence : Inv absorbing2 ∧ Inv locked2 ∧
    ([[1], [], [2, 3]] : List (List Byte)).flatten = ([[1, 2], [3]] : List (List Byte)).flatten :=
  ⟨inv_absorbing2, inv_locked2, by decide⟩
theorem witness_KsxorResult : Live squeezing2 .squeezing := live_squeezing2
theorem witness_KeystreamOrderLaw : Live squeezing2 .squeezing ∧ [Instr.ksxor [1], .stat, .rdlane 24] ≠ [] ∧
    ∀ i ∈ [Instr.ksxor [1], .stat, .rdlane 24], i.opcode ∈ [Opcode.ksxor, .stat, .rdlane] :=
  ⟨live_squeezing2, by decide, by decide⟩
theorem witness_CipherRoundTrip : Inv absorbing2 ∧ Inv squeezing2 ∧ absorbing2.engine.fault = false ∧
    squeezing2.engine.fault = false ∧ absorbing2.maxOutBytes = squeezing2.maxOutBytes ∧
    legalSpec absorbing2.maxOutBytes (16 : Word32).toNat (1584 : Word32).toNat (16 : Word32).toNat = true ∧
    ∃ a₁, execAll (.init 16 1584 16 :: [.wrlane 3 5, .stat, .digest []]) absorbing2 = .next a₁ ∧
      a₁.engine.fault = false ∧ a₁.engine.phase = .squeezing :=
  ⟨inv_absorbing2, inv_squeezing2, rfl, rfl, rfl, by decide, _, rfl, rfl, rfl⟩
theorem witness_ConfirmProtocolResult : Inv squeezing2 ∧ squeezing2.engine.fault = false ∧
    legalSpec squeezing2.maxOutBytes (16 : Word32).toNat (1584 : Word32).toNat (16 : Word32).toNat = true ∧ 1 ≤ 1 :=
  ⟨inv_squeezing2, rfl, by decide, Nat.le_refl 1⟩
theorem witness_KsopenProtocolResult : Inv squeezing2 ∧ squeezing2.engine.fault = false ∧
    legalSpec squeezing2.maxOutBytes (16 : Word32).toNat (1584 : Word32).toNat (16 : Word32).toNat = true :=
  ⟨inv_squeezing2, rfl, by decide⟩
theorem witness_PseudoExpansionsDoOneOperation : Live absorbing2 .absorbing ∧ Live squeezing2 .squeezing ∧
    Phase.squeezing ≠ .uninit ∧ absorbing2.engine.fault = false ∧
    legalSpec absorbing2.maxOutBytes (16 : Word32).toNat (1584 : Word32).toNat (16 : Word32).toNat = true ∧
    0 ≤ 65535 ∧ 65535 ≤ 65535 ∧ Instr.absorb [1] ∈ pseudoAbsorbl [1] :=
  ⟨live_absorbing2, live_squeezing2, by decide, rfl, by decide, by decide, by decide, by decide⟩

/-! ### F as a whole, six rounds at a time -/

/-- Rounds `k` to `k + 5`. -/
def sixRounds (k : Nat) (A : Lanes) : Lanes := (((List.finRange 24).drop k).take 6).foldl keccakRound A

theorem keccakF_in_sixes (A : Lanes) : keccakF A = sixRounds 18 (sixRounds 12 (sixRounds 6 (sixRounds 0 A))) := by
  unfold keccakF sixRounds
  rw [← List.foldl_append, ← List.foldl_append, ← List.foldl_append]
  exact congrArg (List.foldl keccakRound A) (by decide)

/-- The zero state after round 5 (the reference evaluation of 95_test_vectors.md). -/
def zero6 : Lanes :=
  #v[0x43e30b96ff110a58, 0xd642c7df22b4173c, 0xbfd660dfe2e0051d, 0xa303b734f55677e6, 0x37c05e405b01af0c,
   0xb5033314f45c5cb, 0x44f0fbf5606f647a, 0x34fe5a6214181ed1, 0xb42abc5de738ddd5, 0x7a8e099fe258e5d8,
   0x2d6cbeb27c4bc219, 0xa58159b967a3ad93, 0xa4036d7eaf457157, 0x5f252e8e367f3dc8, 0x5e8f6ad5d330526e,
   0x4fcb128386812f6e, 0x2c154103bd90dd0, 0x375463e874af271c, 0x1cee752edb4b48f6, 0x36e67b423707dcb0,
   0xf36ba8b04378f57a, 0xcfcd9cecd3ade3d5, 0x7fc73c7b61494b4c, 0xb913d9d348a8e89a, 0x1edca3008e4023a2]

/-- The zero state after round 11 (the reference evaluation of 95_test_vectors.md). -/
def zero12 : Lanes :=
  #v[0x4089b1d2ef5d3a26, 0x8409f6c9be239ecb, 0x12657d5a4568ead5, 0x4d9f3e32387e66d3, 0x3be7f6680bb1c847,
   0x61ed7fb0ce6ca6af, 0x3671348a3fbd6487, 0x81e9f633f01dcf03, 0xab5eefa38e5546d9, 0x8298d4e430062494,
   0x3229e84a8e1704c2, 0x56f221867a1b3140, 0xdb7043cf08757bb2, 0x52de6de69935b888, 0x98a1c2d38194eda1,
   0x9af85d4549fb53c7, 0x667e09de6b59e740, 0xc08877b3d1a7a9f3, 0x5da108d19209739f, 0xe0e096ffe4ff71ea,
   0x77badafbfd43d602, 0x50a13329b93c785f, 0xf8ae145adffbe076, 0x366d5164bb8f0bb5, 0x438298aa08f16a54]

/-- The zero state after round 17 (the reference evaluation of 95_test_vectors.md). -/
def zero18 : Lanes :=
  #v[0xfbdf32a8511a215a, 0x77cc8c29c4070d1, 0xa1d7456dd43b2098, 0x628b689b07200e95, 0x67a8fa7ccafb6fcc,
   0x4bc8b925db11fc4e, 0x795330566efd965c, 0x12e5367ba3ec4777, 0x6256066085a1c509, 0x9a956cbbb31fa973,
   0x91282d2c07d3c3ea, 0x55c1963ad365f063, 0x471ab241a976b335, 0x8099b9e1f6f6e869, 0x321a2cfbb72874a4,
   0xf35acbbfb66c85ca, 0x56b6b30b89e00255, 0x84b0356a433bf9a8, 0x853d1f0e8d821215, 0x508c1b026dafdc95,
   0x7345ae61eb7c80a2, 0x87ccc9784dd9d4bf, 0x3a624359f6a8b2b5, 0x6da5463417ce143f, 0xc801eff982630994]

theorem test_zero_rounds_0 : sixRounds 0 zeroLanes = zero6 := by decide +kernel
theorem test_zero_rounds_6 : sixRounds 6 zero6 = zero12 := by decide +kernel
theorem test_zero_rounds_12 : sixRounds 12 zero12 = zero18 := by decide +kernel
theorem test_zero_rounds_18 : (sixRounds 18 zero18)[0] = 0xF1258F7940E1DDE7 := by decide +kernel
/-- V1: PERMUTE of the zero state, LANE[0]. -/
theorem test_permute_zero_state :
    (engineAfter (stepWith 0x00000007 [] (absorbingAt 1024 576 256))).map (fun e => e.lanes[0]) =
      some 0xF1258F7940E1DDE7 := by
  have h : (keccakF zeroLanes)[0] = 0xF1258F7940E1DDE7 := by
    rw [keccakF_in_sixes, test_zero_rounds_0, test_zero_rounds_6, test_zero_rounds_12, test_zero_rounds_18]
  exact congrArg some h

/-- Pad("abc", 136) in the first lanes of the zero state. -/
def abcLanes : Lanes := (zeroLanes.set 0 0x1636261).set 16 0x8000000000000000

/-- That state after round 5 (the reference evaluation of 95_test_vectors.md). -/
def abc6 : Lanes :=
  #v[0xb8bf4f65f9169b27, 0xea27bcf57b85c834, 0x6c225d7d604c4ebb, 0x5ce98137eba69953, 0x1513adbe7b71d2cd,
   0x1b4243588a86630f, 0x49651e06283451af, 0x3822c89fc802ce4c, 0xad095c1ac5c823e6, 0xa24ea521503cfb7a,
   0x1e8c73e94b2a7313, 0xb3abfde7ad6c4aa6, 0xa3f7d01f77c79e7, 0xb7eb88336f6ea4e2, 0xdcf5f20bb8636880,
   0xca1eb3d63ac863c, 0xdbd29172a686a96a, 0xe9c613854f994069, 0xc83141e8d070e238, 0x2f4bd936dec5af59,
   0x3f3e82fbfb8c34e3, 0xdf9edba153642782, 0x64ffd59ed11038b1, 0x95b064a8689c903f, 0x1dfb04d45060708b]

/-- That state after round 11 (the reference evaluation of 95_test_vectors.md). -/
def abc12 : Lanes :=
  #v[0xfa2c3164b2758196, 0x25b1709135c90273, 0x4bf4884789ff7c83, 0xbdd65db776d01862, 0x5db39f94e6775f67,
   0x85cd6c87ab087022, 0x1d40ac0e0fbac124, 0x6cc59c8d7aa20a2b, 0x7a624c8858c8c6e2, 0xe0ce5c9d1efc3e63,
   0x8104aa7f37cf94ba, 0x6d428e93f9ba6deb, 0x11c20a437dc654a2, 0x175b59a419fd6058, 0x8b50d44026f4642d,
   0xd0bee533b892fb38, 0xf788a4bade4aff09, 0x9a39bf51c9d27e37, 0x4cabfaa79b4e641b, 0xa3c0a77b16e8bc78,
   0x5ec59b57f32b6d3d, 0x9ce51d67562c39f4, 0x47db84dbc2537669, 0xbcface16c82d94bd, 0x7b2f0f0b00812b18]

/-- That state after round 17 (the reference evaluation of 95_test_vectors.md). -/
def abc18 : Lanes :=
  #v[0x9c5c28927c86a8da, 0x884b3598533edc0b, 0xc0e995b5802a89d9, 0x72a2266d9c6c5aa9, 0x292e7bfecfb833ed,
   0xcafbb54fb7e9ca06, 0x2d3e33ba83bc4a68, 0xa077a28db237785a, 0x79b3a4f450651e88, 0x23477e73190be355,
   0xdc69b5dccbdc1f46, 0xa77ab98df2b20c68, 0x8e8ff70edf455307, 0x911523ac7695aecd, 0xaad756400376c830,
   0x91a9d11f9ded8a1a, 0xc0c1edaec88079f6, 0xc82b1a5edc3f0d9d, 0x15419f8d9768e76e, 0x5a7c43762a759bf3,
   0x4ed5f88d91fbeb21, 0xf88149b3aa49bd13, 0x7110bf9ff13a793, 0xfac29ac328e70d32, 0x6b814212e5da9ab7]

/-- Pad("abc", 136). -/
def abcBlock : List Byte := [0x61, 0x62, 0x63, 0x01] ++ List.replicate 131 0 ++ [0x80]

theorem test_abc_block : xorBlock zeroLanes abcBlock = abcLanes := by decide +kernel
theorem test_abc_pad : pad [0x61, 0x62, 0x63] 136 = abcBlock := by decide +kernel
theorem test_abc_rounds_0 : sixRounds 0 abcLanes = abc6 := by decide +kernel
theorem test_abc_rounds_6 : sixRounds 6 abc6 = abc12 := by decide +kernel
theorem test_abc_rounds_12 : sixRounds 12 abc12 = abc18 := by decide +kernel
theorem test_abc_rounds_18 : stateBytes (sixRounds 18 abc18) 32 =
    [0x4e, 0x03, 0x65, 0x7a, 0xea, 0x45, 0xa9, 0x4f, 0xc7, 0xd4, 0x7b, 0xa8, 0x26, 0xc8, 0xd6, 0x67,
     0xc0, 0xd1, 0xe6, 0xe3, 0x3a, 0x64, 0xa0, 0x36, 0xec, 0x44, 0xf5, 0x8f, 0xa1, 0x2d, 0x6c, 0x45] := by
  decide +kernel
theorem test_decode_abc : decode 0x00030003 [0x61, 0x62, 0x63] = .ok (.digest [0x61, 0x62, 0x63]) := by decide
/-- V4: Keccak-256("abc"). -/
theorem test_digest_keccak256_abc :
    lastBytes (stepWith 0x00030003 [0x61, 0x62, 0x63] (absorbingAt 1088 512 256)) =
      some [0x4e, 0x03, 0x65, 0x7a, 0xea, 0x45, 0xa9, 0x4f, 0xc7, 0xd4, 0x7b, 0xa8, 0x26, 0xc8, 0xd6, 0x67,
            0xc0, 0xd1, 0xe6, 0xe3, 0x3a, 0x64, 0xa0, 0x36, 0xec, 0x44, 0xf5, 0x8f, 0xa1, 0x2d, 0x6c, 0x45] := by
  have absorbed : absorbBlocks 136 zeroLanes abcBlock = (keccakF abcLanes, []) := by
    have short : absorbLoop 136 135 (keccakF abcLanes) [] = (keccakF abcLanes, []) := rfl
    have whole : abcBlock.take 136 = abcBlock ∧ abcBlock.drop 136 = [] := by decide +kernel
    rw [absorbBlocks, show abcBlock.length = 135 + 1 by decide +kernel, absorbLoop, if_pos (by decide +kernel),
      whole.1, whole.2, test_abc_block, short]
  have out : ((absorbingAt 1088 512 256).engine.digest [0x61, 0x62, 0x63]).2 = stateBytes (keccakF abcLanes) 32 := by
    have body : ((absorbingAt 1088 512 256).engine.digest [0x61, 0x62, 0x63]).2 =
        (extract 136 32 (absorbBlocks 136 zeroLanes (pad [0x61, 0x62, 0x63] 136)).1).2 := rfl
    rw [body, test_abc_pad, absorbed]
    rfl
  rw [stepWith, step_cons rfl, perform, execute_of_ok test_decode_abc, exec_digest, execDigest,
    spongeCommand_run (p := .absorbing) (by rfl) (by rfl) (by decide) (by decide)]
  refine congrArg some (Eq.trans out ?_)
  rw [keccakF_in_sixes, test_abc_rounds_0, test_abc_rounds_6, test_abc_rounds_12, test_abc_rounds_18]

end Sys2Proof.Tests
end

section
/-! Proofs about 10_state.md. First what AbsorbBlocks and Extract give at a positive rate, free of their counters; then
the two things every command consists of, the checks that let it run and its body, and what a step can answer in those
terms; then the invariants of a session, body by body; and last the statements. -/

namespace Sys2Proof.Machine

open Sys2Proof.Safety

/-! ### Rate blocks -/

/-- Induction over a message block by block: a message shorter than a block, or one block and the rest. -/
theorem rateBlock_induction {R : Nat} (hR : 1 ≤ R) {motive : List Byte → Prop}
    (short : ∀ M, M.length < R → motive M) (block : ∀ M, R ≤ M.length → motive (M.drop R) → motive M)
    (M : List Byte) : motive M :=
  if h : M.length < R then short M h
  else block M (by omega) (rateBlock_induction hR short block (M.drop R))
termination_by M.length
decreasing_by simp only [List.length_drop]; omega

theorem rateBlocks_of_lt {R : Nat} {M : List Byte} (h : M.length < R) : rateBlocks R M = [] := by
  simp [rateBlocks, Nat.div_eq_of_lt h]

theorem rateBlocks_of_le {R : Nat} {M : List Byte} (hR : 1 ≤ R) (h : R ≤ M.length) :
    rateBlocks R M = M.take R :: rateBlocks R (M.drop R) := by
  have hq : M.length / R = (M.drop R).length / R + 1 := by
    rw [List.length_drop, Nat.div_eq_sub_div (by omega) h]
  simp [rateBlocks, hq, List.range_succ_eq_map, Function.comp_def, List.drop_drop, Nat.add_mul, Nat.add_comm R]

/-- What is left of a message after its whole blocks, unrolled by one block. -/
theorem drop_blocks_of_le {R : Nat} {M : List Byte} (hR : 1 ≤ R) (h : R ≤ M.length) :
    M.drop (R * (M.length / R)) = (M.drop R).drop (R * ((M.drop R).length / R)) := by
  rw [List.drop_drop, List.length_drop, Nat.div_eq_sub_div (by omega) h, Nat.mul_succ, Nat.add_comm]

/-- The whole blocks of a message, joined, are its front (R213). -/
theorem rateBlocks_flatten {R : Nat} (hR : 1 ≤ R) (M : List Byte) :
    (rateBlocks R M).flatten = M.take (R * (M.length / R)) := by
  induction M using rateBlock_induction hR with
  | short M h => simp [rateBlocks_of_lt h, Nat.div_eq_of_lt h]
  | block M h ih =>
    rw [rateBlocks_of_le hR h, List.flatten_cons, ih, List.length_drop, Nat.div_eq_sub_div (by omega) h,
      Nat.mul_succ, Nat.add_comm _ R, List.take_add]

/-! ### AbsorbBlocks -/

theorem absorbedBlocks_cons (A : Lanes) (b : List Byte) (bs : List (List Byte)) :
    absorbedBlocks A (b :: bs) = absorbedBlocks (keccakF (xorBlock A b)) bs := List.foldl_cons ..

/-- With a counter that covers the input, the loop absorbs every whole block and leaves the rest (R191). -/
theorem absorbLoop_eq {R : Nat} (hR : 1 ≤ R) (fuel : Nat) (A : Lanes) (buf : List Byte) (hf : buf.length ≤ fuel) :
    absorbLoop R fuel A buf = (absorbedBlocks A (rateBlocks R buf), buf.drop (R * (buf.length / R))) := by
  induction fuel generalizing A buf with
  | zero =>
    rw [List.eq_nil_of_length_eq_zero (Nat.le_zero.mp hf), rateBlocks_of_lt hR]
    simp [absorbLoop, absorbedBlocks]
  | succ n ih =>
    unfold absorbLoop
    split
    next h =>
      rw [ih _ _ (by simp only [List.length_drop]; omega), rateBlocks_of_le hR h, absorbedBlocks_cons,
        drop_blocks_of_le hR h]
    next h =>
      rw [rateBlocks_of_lt (by omega), Nat.div_eq_of_lt (by omega)]
      rfl

/-- AbsorbBlocks in closed form: every whole block absorbed, the rest left (R191, R213). -/
theorem absorbBlocks_eq {R : Nat} (hR : 1 ≤ R) (A : Lanes) (buf : List Byte) :
    absorbBlocks R A buf = (absorbedBlocks A (rateBlocks R buf), buf.drop (R * (buf.length / R))) :=
  absorbLoop_eq hR _ A buf le_rfl

theorem absorbBlocks_of_lt {R : Nat} {buf : List Byte} (A : Lanes) (h : buf.length < R) :
    absorbBlocks R A buf = (A, buf) := by
  rw [absorbBlocks_eq (by omega), rateBlocks_of_lt h, Nat.div_eq_of_lt h]
  rfl

theorem absorbBlocks_of_le {R : Nat} {buf : List Byte} (hR : 1 ≤ R) (A : Lanes) (h : R ≤ buf.length) :
    absorbBlocks R A buf = absorbBlocks R (keccakF (xorBlock A (buf.take R))) (buf.drop R) := by
  rw [absorbBlocks_eq hR, absorbBlocks_eq hR, rateBlocks_of_le hR h, absorbedBlocks_cons, drop_blocks_of_le hR h]

/-- The remainder is shorter than a block (R191). -/
theorem absorbBlocks_remainder_lt {R : Nat} (hR : 1 ≤ R) (A : Lanes) (buf : List Byte) :
    (absorbBlocks R A buf).2.length < R := by
  have := Nat.div_add_mod buf.length R
  have := Nat.mod_lt buf.length hR
  simp only [absorbBlocks_eq hR, List.length_drop]
  omega

/-- Absorbing in two pieces, the remainder of the first kept for the second, is absorbing the pieces joined. -/
theorem absorbBlocks_append {R : Nat} (hR : 1 ≤ R) (A : Lanes) (x y : List Byte) :
    absorbBlocks R (absorbBlocks R A x).1 ((absorbBlocks R A x).2 ++ y) = absorbBlocks R A (x ++ y) := by
  induction x using rateBlock_induction hR generalizing A with
  | short x h => rw [absorbBlocks_of_lt A h]
  | block x h ih =>
    rw [absorbBlocks_of_le hR A h, ih, absorbBlocks_of_le hR A (buf := x ++ y) (by simp; omega),
      List.take_append_of_le_length h, List.drop_append_of_le_length h]

/-! ### Extract -/

/-- Each pass gives at least one byte, so a counter of as many passes as bytes are missing is enough (R192). -/
theorem extractLoop_length {R : Nat} (hR : 1 ≤ R) (n fuel : Nat) (A : Lanes) (out : List Byte)
    (hlt : out.length < n) (hf : n ≤ out.length + fuel) : (extractLoop R n fuel A out).2.length = n := by
  induction fuel generalizing A out with
  | zero => omega
  | succ k ih =>
    simp only [extractLoop]
    split
    · assumption
    next h =>
      simp only [List.length_append, stateBytes_length] at h
      exact ih _ _ (by simp; omega) (by simp; omega)

/-- Extract(n) gives n bytes (R192). -/
theorem extract_length {R : Nat} (hR : 1 ≤ R) (n : Nat) (A : Lanes) : (extract R n A).2.length = n := by
  cases n with
  | zero => rfl
  | succ n => exact extractLoop_length hR _ _ A [] (by simp) (by simp)

/-- SqueezeOp gives n bytes (R193). -/
theorem squeezeOp_length {R : Nat} (hR : 1 ≤ R) (n : Nat) (A : Lanes) : (squeezeOp R n A).2.length = n :=
  extract_length hR n _

/-! ### KSXOR's loop, field by field -/

@[simp] theorem ksxorLoop_pending (d : List Byte) (e : Engine) : (ksxorLoop d e).1.pending = e.pending := by
  rw [ksxorLoop_frame]
@[simp] theorem ksxorLoop_rateBits (d : List Byte) (e : Engine) : (ksxorLoop d e).1.rateBits = e.rateBits := by
  rw [ksxorLoop_frame]
@[simp] theorem ksxorLoop_capBits (d : List Byte) (e : Engine) : (ksxorLoop d e).1.capBits = e.capBits := by
  rw [ksxorLoop_frame]
@[simp] theorem ksxorLoop_outBits (d : List Byte) (e : Engine) : (ksxorLoop d e).1.outBits = e.outBits := by
  rw [ksxorLoop_frame]
@[simp] theorem ksxorLoop_phase (d : List Byte) (e : Engine) : (ksxorLoop d e).1.phase = e.phase := by
  rw [ksxorLoop_frame]
@[simp] theorem ksxorLoop_fault (d : List Byte) (e : Engine) : (ksxorLoop d e).1.fault = e.fault := by
  rw [ksxorLoop_frame]
@[simp] theorem ksxorLoop_cause (d : List Byte) (e : Engine) : (ksxorLoop d e).1.cause = e.cause := by
  rw [ksxorLoop_frame]

/-! ### The fields of STATUS (R34): each skips the fields appended below it -/

theorem statusWord_phase (e : Engine) : (statusWord e).extractLsb' 0 2 = e.phase.code := by
  unfold statusWord
  exact BitVec.extractLsb'_append_eq_right

theorem statusWord_fault (e : Engine) : (statusWord e).extractLsb' 2 1 = BitVec.ofBool e.fault := by
  unfold statusWord
  rw [BitVec.extractLsb'_append_eq_of_le (by decide)]
  exact BitVec.extractLsb'_append_eq_right

theorem statusWord_reserved_low (e : Engine) : (statusWord e).extractLsb' 3 5 = 0 := by
  unfold statusWord
  iterate 2 rw [BitVec.extractLsb'_append_eq_of_le (by decide)]
  exact BitVec.extractLsb'_append_eq_right

theorem statusWord_cause (e : Engine) : (statusWord e).extractLsb' 8 4 = e.cause.code := by
  unfold statusWord
  iterate 3 rw [BitVec.extractLsb'_append_eq_of_le (by decide)]
  exact BitVec.extractLsb'_append_eq_right

theorem statusWord_reserved_high (e : Engine) : (statusWord e).extractLsb' 12 4 = 0 := by
  unfold statusWord
  iterate 4 rw [BitVec.extractLsb'_append_eq_of_le (by decide)]
  exact BitVec.extractLsb'_append_eq_right

theorem statusWord_pendlen (e : Engine) : (statusWord e).extractLsb' 16 8 = BitVec.ofNat 8 e.pending.length := by
  unfold statusWord
  iterate 5 rw [BitVec.extractLsb'_append_eq_of_le (by decide)]
  exact BitVec.extractLsb'_append_eq_right

theorem statusWord_last (e : Engine) : (statusWord e).extractLsb' 24 8 = e.last.code := by
  unfold statusWord
  iterate 5 rw [BitVec.extractLsb'_append_eq_of_le (by decide)]
  exact BitVec.extractLsb'_append_eq_left

/-! ### What a command is: its checks and its body -/

/-- Unlocked, in a session of phase `p`, its registers in range: where a sponge command of that phase runs. -/
structure InSession (p : Phase) (s : State) : Prop where
  unlocked : s.engine.fault = false
  phase : s.engine.phase = p
  registers : s.engine.sessionOk = true

/-- Unlocked, in a session: where PERMUTE, RDLANE and WRLANE run. -/
structure InAnySession (s : State) : Prop where
  unlocked : s.engine.fault = false
  in_session : s.engine.phase ≠ .uninit

/-- The checks of R280 that let a command's body run. -/
def MayRun : Instr → State → Prop
  | .init r c o => fun s => s.engine.fault = false ∧ legalSpec s.maxOutBytes r.toNat c.toNat o.toNat = true
  | .absorb _ => InSession .absorbing
  | .digest _ => InSession .absorbing
  | .squeeze => InSession .squeezing
  | .fastsqz _ => InSession .squeezing
  | .ksxor _ => InSession .squeezing
  | .permute => InAnySession
  | .rdlane _ => InAnySession
  | .wrlane _ _ => InAnySession
  | .dispose => fun _ => True
  | .stat => fun _ => True

/-- What a command's body makes of the engine, and its response data. -/
def bodyOf : Instr → Engine → Engine × List Byte
  | .init r c o, e => (e.startSession r c o, [])
  | .absorb d, e => (e.absorb d, [])
  | .digest d, e => e.digest d
  | .squeeze, e =>
    (e.latchBlock (squeezeOp e.rateBytes e.outBytes e.lanes), (squeezeOp e.rateBytes e.outBytes e.lanes).2)
  | .fastsqz k, e => (e.fastSqueeze k.toNat, [])
  | .ksxor d, e => ksxorLoop d e
  | .permute, e => ({ e with lanes := keccakF e.lanes }, [])
  | .rdlane i, e => (e, leBytes 8 (readLane e.lanes i))
  | .wrlane i v, e => ({ e with lanes := writeLane e.lanes i v }, [])
  | .dispose, _ => (Engine.reset, [])
  | .stat, e => (e, [])

/-- Every command but INIT, DISPOSE and STAT is a sponge command of one phase or a raw command, with its body. -/
theorem exec_shape (i : Instr) :
    (∃ r c o, i = .init r c o) ∨
    (∃ p, p ≠ .uninit ∧ MayRun i = InSession p ∧ exec i = spongeCommand p (bodyOf i)) ∨
    (MayRun i = InAnySession ∧ exec i = rawCommand (bodyOf i)) ∨
    i = .dispose ∨ i = .stat := by
  cases i with
  | init r c o => exact .inl ⟨r, c, o, rfl⟩
  | absorb d => exact .inr (.inl ⟨.absorbing, by decide, rfl, rfl⟩)
  | digest d => exact .inr (.inl ⟨.absorbing, by decide, rfl, rfl⟩)
  | squeeze => exact .inr (.inl ⟨.squeezing, by decide, rfl, rfl⟩)
  | fastsqz k => exact .inr (.inl ⟨.squeezing, by decide, rfl, rfl⟩)
  | ksxor d => exact .inr (.inl ⟨.squeezing, by decide, rfl, rfl⟩)
  | permute => exact .inr (.inr (.inl ⟨rfl, rfl⟩))
  | rdlane i => exact .inr (.inr (.inl ⟨rfl, rfl⟩))
  | wrlane i v => exact .inr (.inr (.inl ⟨rfl, rfl⟩))
  | dispose => exact .inr (.inr (.inr (.inl rfl)))
  | stat => exact .inr (.inr (.inr (.inr rfl)))

/-- A command whose checks pass runs its body. -/
theorem exec_of_mayRun {i : Instr} {s : State} (h : MayRun i s) :
    exec i s = .next (s.complete (bodyOf i s.engine)) := by
  obtain ⟨r, c, o, rfl⟩ | ⟨p, hp, hr, hx⟩ | ⟨hr, hx⟩ | rfl | rfl := exec_shape i
  · obtain ⟨hf, hl⟩ := h
    simp [execInit, hf, hl, bodyOf]
  · rw [hr] at h
    obtain ⟨hf, hph, ho⟩ := h
    rw [hx, spongeCommand_run hf hph hp ho]
  · rw [hr] at h
    obtain ⟨hf, hp⟩ := h
    simp [hx, rawCommand, hf, hp]
  · rfl
  · rfl

/-- While FAULT = 1 only DISPOSE and STAT run (R282). -/
theorem MayRun.exempt_of_fault {i : Instr} {s : State} (h : MayRun i s) (hf : s.engine.fault = true) :
    i = .dispose ∨ i = .stat := by
  obtain ⟨r, c, o, rfl⟩ | ⟨p, -, hr, -⟩ | ⟨hr, -⟩ | hd := exec_shape i
  · exact absurd hf (ne_true_of_eq_false h.1)
  · rw [hr] at h
    exact absurd hf (ne_true_of_eq_false h.unlocked)
  · rw [hr] at h
    exact absurd hf (ne_true_of_eq_false h.unlocked)
  · exact hd

/-! ### What a command, a word and a step can answer -/

/-- A command that did not run its body: refused by the lock, or failed with the first fault. -/
def Failed (s t : State) : Prop :=
  (s.engine.fault = true ∧ t = s.lockOut) ∨ (s.engine.fault = false ∧ ∃ c, t = s.raise c)

/-- A command that answers a next state failed, or its checks passed and its body ran. -/
theorem exec_failed_or_run {i : Instr} {s t : State} (h : exec i s = .next t) :
    Failed s t ∨ (MayRun i s ∧ t = s.complete (bodyOf i s.engine)) := by
  obtain ⟨r, c, o, rfl⟩ | ⟨p, -, hr, hx⟩ | ⟨hr, hx⟩ | rfl | rfl := exec_shape i
  · obtain ⟨hf, ht⟩ | ⟨hf, hl, ht⟩ | ⟨hf, -, ht⟩ := execInit_next h
    · exact .inl (.inl ⟨hf, ht⟩)
    · exact .inr ⟨⟨hf, hl⟩, ht⟩
    · exact .inl (.inr ⟨hf, _, ht⟩)
  · rw [hx] at h
    rw [hr]
    obtain ⟨hf, ht⟩ | ⟨hf, -, ht⟩ | ⟨hf, -, -, ht⟩ | ⟨hf, -, hp, ho, ht⟩ := spongeCommand_next h
    · exact .inl (.inl ⟨hf, ht⟩)
    · exact .inl (.inr ⟨hf, _, ht⟩)
    · exact .inl (.inr ⟨hf, _, ht⟩)
    · exact .inr ⟨⟨hf, hp, ho⟩, ht⟩
  · rw [hx] at h
    rw [hr]
    obtain ⟨hf, ht⟩ | ⟨hf, -, ht⟩ | ⟨hf, hp, ht⟩ := rawCommand_next h
    · exact .inl (.inl ⟨hf, ht⟩)
    · exact .inl (.inr ⟨hf, _, ht⟩)
    · exact .inr ⟨⟨hf, hp⟩, ht⟩
  · cases h; exact .inr ⟨trivial, rfl⟩
  · cases h; exact .inr ⟨trivial, rfl⟩

/-- Everything a word and payload can answer with a next state. -/
theorem execute_next {w : Word32} {p : List Byte} {s t : State} (h : execute w p s = .next t) :
    t = s.lockOut ∨ (∃ c, t = s.raise c) ∨
      ∃ i, decode w p = .ok i ∧ MayRun i s ∧ t = s.complete (bodyOf i s.engine) := by
  have failed (x : Bool) (c : Err) : s.failDecode x c = s.lockOut ∨ ∃ c', s.failDecode x c = s.raise c' := by
    rw [failDecode_eq]
    split
    · exact .inl rfl
    · exact .inr ⟨c, rfl⟩
  unfold execute at h
  split at h
  next i hd =>
    obtain (⟨-, ht⟩ | ⟨-, c, ht⟩) | ⟨hr, ht⟩ := exec_failed_or_run h
    · exact .inl ht
    · exact .inr (.inl ⟨c, ht⟩)
    · exact .inr (.inr ⟨i, hd, hr, ht⟩)
  · cases h
  · cases h
    exact (failed _ _).imp id .inl
  · cases h
    exact (failed _ _).imp id .inl

/-- Everything a step can answer with a next state. -/
theorem step_next {s t : State} (h : step s = .next t) :
    (s.actions = [] ∧ t = s) ∨
    (∃ rest, s.actions = .reset :: rest ∧ t = State.clearEngine { s with actions := rest }) ∨
    (∃ w p rest, s.actions = .command w p :: rest ∧ execute w p { s with actions := rest } = .next t) := by
  match ha : s.actions with
  | [] => rw [step_nil ha] at h; cases h; exact .inl ⟨rfl, rfl⟩
  | .command w p :: rest => rw [step_cons ha] at h; exact .inr (.inr ⟨w, p, rest, rfl, h⟩)
  | .reset :: rest => rw [step_cons ha] at h; cases h; exact .inr (.inl ⟨rest, rfl, rfl⟩)
  | .commandBeforeResponse _ _ :: _ => rw [step_cons ha] at h; cases h
  | .resetDuringCommand :: _ => rw [step_cons ha] at h; cases h

/-! ### Where a step faults -/

/-- A command faults only in a session whose registers are out of range. -/
theorem exec_fault {i : Instr} {s : State} {f : Fault} (h : exec i s = .fault f) :
    s.engine.phase ≠ .uninit ∧ s.engine.sessionOk = false := by
  obtain ⟨r, c, o, rfl⟩ | ⟨p, -, -, hx⟩ | ⟨-, hx⟩ | rfl | rfl := exec_shape i
  · rw [exec_init, execInit] at h
    split_ifs at h
  · exact (spongeCommand_fault (hx ▸ h)).2
  · rw [hx, rawCommand] at h
    split_ifs at h
  · cases h
  · cases h

/-- A word and payload fault only where they are a command that does. -/
theorem execute_fault {w : Word32} {p : List Byte} {s : State} {f : Fault} (h : execute w p s = .fault f) :
    s.engine.phase ≠ .uninit ∧ s.engine.sessionOk = false := by
  unfold execute at h
  split at h
  · exact exec_fault h
  all_goals cases h

/-- A step faults only where it executes a word that does, and taking the action changes no engine state. -/
theorem step_fault {s : State} {f : Fault} (h : step s = .fault f) :
    s.engine.phase ≠ .uninit ∧ s.engine.sessionOk = false := by
  match ha : s.actions with
  | [] => rw [step_nil ha] at h; cases h
  | .command w p :: rest =>
    rw [step_cons ha] at h
    exact execute_fault (s := { s with actions := rest }) h
  | .reset :: _ => rw [step_cons ha] at h; cases h
  | .commandBeforeResponse _ _ :: _ => rw [step_cons ha] at h; cases h
  | .resetDuringCommand :: _ => rw [step_cons ha] at h; cases h

end Sys2Proof.Machine

/-! ### The invariants of a session, on the engine alone -/

namespace Sys2Proof.Safety

open Sys2Proof.Machine

/-- I2 to I4 of R36 for an engine in a session. -/
structure SessionInv (maxOutBytes : Nat) (e : Engine) : Prop where
  in_session : e.phase ≠ .uninit
  config : legalSpec maxOutBytes e.rateBits.toNat e.capBits.toNat e.outBits.toNat = true
  pending_lt : e.phase = .absorbing → e.pending.length < e.rateBytes
  pending_nil : e.phase ≠ .absorbing → e.pending = []
  ksblk_length : e.ksblk.length = e.outBytes
  ksptr_le : e.ksptr ≤ e.outBytes

theorem Inv.session {s : State} (h : Inv s) (hp : s.engine.phase ≠ .uninit) :
    SessionInv s.maxOutBytes s.engine :=
  ⟨hp, h.config hp, h.pending_lt, h.pending_nil, h.ksblk_length, h.ksptr_le⟩

namespace SessionInv

variable {m : Nat} {e : Engine}

/-- In a session the invariants are those of the session, R11, I5 and I6. -/
theorem inv {s : State} (h : SessionInv s.maxOutBytes s.engine) (hm : 1 ≤ s.maxOutBytes)
    (hc : s.engine.fault = false → s.engine.cause = .none) : Inv s where
  maxOut_pos := hm
  uninit := fun hu => absurd hu h.in_session
  config := fun _ => h.config
  pending_lt := h.pending_lt
  pending_nil := h.pending_nil
  ksblk_length := h.ksblk_length
  ksptr_le := h.ksptr_le
  phase_ne_three := by cases s.engine.phase <;> decide
  cause_none := hc

/-- R is 1 to 199 (R10). -/
theorem rateBytes_range (h : SessionInv m e) : 1 ≤ e.rateBytes ∧ e.rateBytes ≤ 199 := by
  have hc := (legalSpec_iff ..).mp h.config
  unfold Engine.rateBytes
  omega

/-- n is at least 1 (R10). -/
theorem one_le_outBytes (h : SessionInv m e) : 1 ≤ e.outBytes := by
  have hc := (legalSpec_iff ..).mp h.config
  unfold Engine.outBytes
  omega

theorem sessionOk (h : SessionInv m e) : e.sessionOk = true := by
  obtain ⟨hr, hc, hs, hr8, ho, ho8, -⟩ := (legalSpec_iff ..).mp h.config
  exact (sessionOk_iff e).mpr ⟨⟨hr, hc, hs, hr8, ho, ho8⟩, h.ksblk_length, h.ksptr_le⟩

/-- A legal r keeps its value in RATE_BITS (R26), so R is r div 8 (R10). -/
theorem startSession_rateBytes {r c o : Word32} (h : legalSpec m r.toNat c.toNat o.toNat = true) (e : Engine) :
    (e.startSession r c o).rateBytes = r.toNat / 8 := by
  have hl := (legalSpec_iff ..).mp h
  simp only [Engine.rateBytes, startSession_rateBits, BitVec.toNat_setWidth]
  omega

/-- INIT starts a session with its invariants: a legal r and c keep their value in 11 bits (R26, R200). -/
theorem startSession {r c o : Word32} (h : legalSpec m r.toNat c.toNat o.toNat = true) (e : Engine) :
    SessionInv m (e.startSession r c o) := by
  have hl := (legalSpec_iff ..).mp h
  have hr : (r.setWidth 11).toNat = r.toNat := by rw [BitVec.toNat_setWidth]; omega
  have hc : (c.setWidth 11).toNat = c.toNat := by rw [BitVec.toNat_setWidth]; omega
  exact
    { in_session := by simp
      config := by simpa [hr, hc] using h
      pending_lt := fun _ => by simp [Engine.rateBytes, hr]; omega
      pending_nil := fun hp => absurd rfl hp
      ksblk_length := by simp [Engine.outBytes]
      ksptr_le := by simp }

/-- No invariant of a session speaks of the lanes. -/
theorem withLanes (h : SessionInv m e) (A : Lanes) : SessionInv m { e with lanes := A } :=
  ⟨h.in_session, h.config, h.pending_lt, h.pending_nil, h.ksblk_length, h.ksptr_le⟩

/-- The cursor stands in the block or at its end (I4). -/
theorem withKsptr (h : SessionInv m e) {k : Nat} (hk : k ≤ e.outBytes) : SessionInv m { e with ksptr := k } :=
  ⟨h.in_session, h.config, h.pending_lt, h.pending_nil, h.ksblk_length, hk⟩

/-- A latched block has n bytes (I4). -/
theorem latchBlock (h : SessionInv m e) {r : Lanes × List Byte} (hr : r.2.length = e.outBytes) :
    SessionInv m (e.latchBlock r) :=
  ⟨h.in_session, h.config, h.pending_lt, h.pending_nil, hr, Nat.zero_le _⟩

/-- ABSORB leaves a remainder below R as PENDING (R202). -/
theorem absorb (h : SessionInv m e) (hp : e.phase = .absorbing) (d : List Byte) : SessionInv m (e.absorb d) :=
  ⟨h.in_session, h.config, fun _ => absorbBlocks_remainder_lt h.rateBytes_range.1 _ _, fun hn => absurd hp hn,
    h.ksblk_length, h.ksptr_le⟩

/-- DIGEST empties PENDING, enters SQUEEZING and latches n bytes (R204). -/
theorem digest (h : SessionInv m e) (d : List Byte) : SessionInv m (e.digest d).1 :=
  have squeezing : SessionInv m { e with pending := [], phase := .squeezing } :=
    ⟨nofun, h.config, nofun, fun _ => rfl, h.ksblk_length, h.ksptr_le⟩
  squeezing.latchBlock (extract_length h.rateBytes_range.1 _ _)

theorem squeeze (h : SessionInv m e) :
    SessionInv m (e.latchBlock (squeezeOp e.rateBytes e.outBytes e.lanes)) :=
  h.latchBlock (squeezeOp_length h.rateBytes_range.1 _ _)

/-- FASTSQZ moves the cursor to the block's end, or leaves it (R208). -/
theorem fastSqueeze (h : SessionInv m e) (k : Nat) : SessionInv m (e.fastSqueeze k) := by
  refine (h.withLanes _).withKsptr ?_
  split
  · exact le_rfl
  · exact h.ksptr_le

theorem refill (h : SessionInv m e) : SessionInv m e.refill := by
  unfold Engine.refill
  split
  · exact h.squeeze
  · exact h

/-- After the refill the cursor is inside the block (R241). -/
theorem refill_ksptr_lt (h : SessionInv m e) : e.refill.ksptr < e.refill.outBytes := by
  have hn := h.one_le_outBytes
  have hk := h.ksptr_le
  unfold Engine.refill
  split
  · exact hn
  · omega

theorem ksxorLoop (h : SessionInv m e) (d : List Byte) : SessionInv m (ksxorLoop d e).1 := by
  induction d generalizing e with
  | nil => exact h
  | cons b bs ih => exact ih (h.refill.withKsptr h.refill_ksptr_lt)

end SessionInv

/-- PENDING is at most 198 bytes (R25, I3). -/
theorem Inv.pending_length_le {s : State} (h : Inv s) : s.engine.pending.length ≤ 198 := by
  by_cases hp : s.engine.phase = .absorbing
  · have hR := (h.session (hp.trans_ne (by decide))).rateBytes_range
    have := h.pending_lt hp
    omega
  · simp [h.pending_nil hp]

/-! ### Every step keeps the invariants -/

/-- In a session the registers are in range, so no command faults for them. -/
theorem Inv.sessionOk {s : State} (h : Inv s) (hp : s.engine.phase ≠ .uninit) : s.engine.sessionOk = true :=
  (h.session hp).sessionOk

/-- The invariants speak of FAULT and CAUSE in I6 only, and not of LAST, the host's actions or the responses. -/
theorem Inv.withControl {s : State} (h : Inv s) {f : Bool} {c : Cause} (hc : f = false → c = .none) (l : Last)
    (acts : List HostAction) (rs : List Response) :
    Inv ⟨{ s.engine with fault := f, cause := c, last := l }, s.maxOutBytes, acts, rs⟩ :=
  ⟨h.maxOut_pos, h.uninit, h.config, h.pending_lt, h.pending_nil, h.ksblk_length, h.ksptr_le, h.phase_ne_three, hc⟩

theorem Inv.withActions {s : State} (h : Inv s) (acts : List HostAction) : Inv { s with actions := acts } :=
  h.withControl h.cause_none ..

theorem Inv.lockOut {s : State} (h : Inv s) : Inv s.lockOut := h.withControl h.cause_none ..

theorem Inv.raise {s : State} (h : Inv s) (c : Err) : Inv (s.raise c) := by
  cases hf : s.engine.fault
  · rw [State.raise, latchFault_of_not_fault _ _ hf]
    exact h.withControl (f := true) nofun ..
  · rw [State.raise, latchFault_of_fault _ _ hf]
    exact h.withControl h.cause_none ..

/-- The reset engine has the invariants, whatever stands around it (R310). -/
theorem inv_of_reset {s : State} (hm : 1 ≤ s.maxOutBytes) (he : s.engine = Engine.reset) : Inv s := by
  obtain ⟨e, m, acts, rs⟩ := s
  subst he
  exact
    { maxOut_pos := hm
      uninit := fun _ => ⟨rfl, rfl, rfl, rfl, rfl, rfl, rfl⟩
      config := fun hp => absurd rfl hp
      pending_lt := nofun
      pending_nil := fun _ => rfl
      ksblk_length := (by decide : Engine.reset.ksblk.length = Engine.reset.outBytes)
      ksptr_le := Nat.zero_le _
      phase_ne_three := (by decide : Phase.uninit.code ≠ 3)
      cause_none := fun _ => rfl }

/-- INIT's body starts a session with its invariants; the other bodies but DISPOSE's and STAT's run in one and keep
them. -/
theorem Inv.session_bodyOf {i : Instr} {s : State} (h : Inv s) (hr : MayRun i s) (hd : i ≠ .dispose)
    (hs : i ≠ .stat) : SessionInv s.maxOutBytes (bodyOf i s.engine).1 := by
  have live {p : Phase} (hl : InSession p s) (hp : p ≠ .uninit) : SessionInv s.maxOutBytes s.engine :=
    h.session (hl.phase.trans_ne hp)
  cases i with
  | init r c o => exact .startSession hr.2 _
  | absorb d => exact (live hr (by decide)).absorb hr.phase d
  | digest d => exact (live hr (by decide)).digest d
  | squeeze => exact (live hr (by decide)).squeeze
  | fastsqz k => exact (live hr (by decide)).fastSqueeze _
  | ksxor d => exact (live hr (by decide)).ksxorLoop d
  | permute => exact (h.session hr.in_session).withLanes _
  | rdlane i => exact h.session hr.in_session
  | wrlane i v => exact (h.session hr.in_session).withLanes _
  | dispose => exact absurd rfl hd
  | stat => exact absurd rfl hs

/-- Only DISPOSE's body writes FAULT or CAUSE (R31, R32). -/
theorem bodyOf_fault_cause {i : Instr} (hd : i ≠ .dispose) (e : Engine) :
    (bodyOf i e).1.fault = e.fault ∧ (bodyOf i e).1.cause = e.cause := by
  cases i <;> simp_all [bodyOf]

/-- A body that runs keeps the invariants. -/
theorem Inv.complete {i : Instr} {s : State} (h : Inv s) (hr : MayRun i s) :
    Inv (s.complete (bodyOf i s.engine)) := by
  by_cases hd : i = .dispose
  · subst hd
    exact inv_of_reset h.maxOut_pos rfl
  by_cases hs : i = .stat
  · subst hs
    exact h.withControl h.cause_none ..
  · obtain ⟨hf, hc⟩ := bodyOf_fault_cause hd s.engine
    have hb := h.session_bodyOf hr hd hs
    have done : SessionInv s.maxOutBytes (s.complete (bodyOf i s.engine)).engine :=
      ⟨hb.in_session, hb.config, hb.pending_lt, hb.pending_nil, hb.ksblk_length, hb.ksptr_le⟩
    exact done.inv h.maxOut_pos (by simpa [hf, hc] using h.cause_none)

theorem Inv.execute {w : Word32} {p : List Byte} {s t : State} (h : Inv s) (hx : execute w p s = .next t) :
    Inv t := by
  obtain rfl | ⟨c, rfl⟩ | ⟨i, -, hr, rfl⟩ := execute_next hx
  · exact h.lockOut
  · exact h.raise c
  · exact h.complete hr

/-! ### A session absorbing -/

theorem Live.inSession {s : State} {p : Phase} (h : Live s p) (hp : p ≠ .uninit) : InSession p s :=
  ⟨h.unlocked, h.phase, h.inv.sessionOk (h.phase.trans_ne hp)⟩

theorem Live.one_le_rateBytes {s : State} {p : Phase} (h : Live s p) (hp : p ≠ .uninit) : 1 ≤ s.engine.rateBytes :=
  (h.inv.session (h.phase.trans_ne hp)).rateBytes_range.1

/-- The state right after a legal INIT is a session absorbing (R200). -/
theorem live_startSession {s : State} {r c o : Word32} (h : Inv s) (hf : s.engine.fault = false)
    (hl : legalSpec s.maxOutBytes r.toNat c.toNat o.toNat = true) :
    Live (s.complete (s.engine.startSession r c o, [])) .absorbing :=
  ⟨h.complete (i := .init r c o) ⟨hf, hl⟩, hf, rfl⟩

theorem Live.absorb {s : State} (h : Live s .absorbing) (d : List Byte) :
    Live (s.complete (s.engine.absorb d, [])) .absorbing :=
  ⟨h.inv.complete (i := .absorb d) (h.inSession (by decide)), h.unlocked, h.phase⟩

/-- A list of ABSORBs does to a session what AbsorbBlocks does to PENDING and all their bytes, and LAST aside nothing
else (R202, R215). -/
theorem execAll_absorb (ps : List (List Byte)) {s : State} (h : Live s .absorbing) :
    ∃ t, execAll (ps.map .absorb) s = .next t ∧ Live t .absorbing ∧
      t.engine =
        { s.engine with
          lanes := (absorbBlocks s.engine.rateBytes s.engine.lanes (s.engine.pending ++ ps.flatten)).1
          pending := (absorbBlocks s.engine.rateBytes s.engine.lanes (s.engine.pending ++ ps.flatten)).2
          last := t.engine.last } := by
  induction ps generalizing s with
  | nil =>
    refine ⟨s, rfl, h, ?_⟩
    rw [List.flatten_nil, List.append_nil, absorbBlocks_of_lt _ (h.inv.pending_lt h.phase)]
  | cons d ds ih =>
    obtain ⟨t, hx, hl, he⟩ := ih (h.absorb d)
    refine ⟨t, ?_, hl, ?_⟩
    · rw [List.map_cons, execAll_cons_next (exec_of_mayRun (i := .absorb d) (h.inSession (by decide)))]
      exact hx
    · have joined := absorbBlocks_append (h.one_le_rateBytes (by decide)) s.engine.lanes (s.engine.pending ++ d)
        ds.flatten
      rw [List.flatten_cons, ← List.append_assoc, ← joined]
      exact he

end Sys2Proof.Safety

/-! ### The statements -/

namespace Sys2Proof.Proofs

open Sys2Proof.Machine Sys2Proof.Safety

/-- Settles O17: an idle step and reset apart, a step executes a word, and each of its three answers keeps the
invariants. -/
theorem stepKeepsInvariant : Obligations.StepKeepsInvariant := by
  intro s t h hst
  obtain ⟨-, rfl⟩ | ⟨rest, -, rfl⟩ | ⟨w, p, rest, -, hx⟩ := step_next hst
  · exact h
  · exact inv_of_reset h.maxOut_pos rfl
  · exact (h.withActions rest).execute hx

/-- Settles O13: where a step faults, the registers of a session are out of range. -/
theorem faultOnlyOutsideInvariant : Obligations.FaultOnlyOutsideInvariant := by
  intro s f hst h
  obtain ⟨hp, ho⟩ := step_fault hst
  exact absurd (h.sessionOk hp) (ne_true_of_eq_false ho)

/-- Settles O16: the engine of R310 is the one I1 describes. -/
theorem resetStateHasInvariant : Obligations.ResetStateHasInvariant :=
  fun _ hm => inv_of_reset hm rfl

/-- Settles O19: the ABSORBs after INIT are AbsorbBlocks of all their bytes from the zero state. -/
theorem absorbedBlocksThenPending : Obligations.AbsorbedBlocksThenPending := by
  intro s r c o ps h hf hl
  have start := live_startSession h hf hl
  obtain ⟨t, hx, hlive, he⟩ := execAll_absorb ps start
  have hR : (s.complete (s.engine.startSession r c o, [])).engine.rateBytes = r.toNat / 8 :=
    SessionInv.startSession_rateBytes hl s.engine
  have one_le : 1 ≤ r.toNat / 8 := hR ▸ start.one_le_rateBytes (by decide)
  have rate : t.engine.rateBytes = r.toNat / 8 := (congrArg Engine.rateBytes he).trans hR
  have closed : absorbBlocks (r.toNat / 8) _ ([] ++ ps.flatten) = _ :=
    absorbBlocks_eq one_le (Vector.replicate 25 0) ps.flatten
  rw [hR] at he
  have lanes := (congrArg Engine.lanes he).trans (congrArg Prod.fst closed)
  have pending := (congrArg Engine.pending he).trans (congrArg Prod.snd closed)
  refine ⟨t, ?_, pending, rate ▸ hlive.inv.pending_lt hlive.phase, lanes, ?_⟩
  · rw [execAll_cons_next (exec_of_mayRun (i := .init r c o) ⟨hf, hl⟩)]
    exact hx
  · rw [pending, rateBlocks_flatten one_le, List.take_append_drop]

/-- Settles O26: while FAULT = 1 a command is locked out, fails without a trace but LAST, or is DISPOSE or STAT. -/
theorem faultClearedOnlyByDisposeOrReset : Obligations.FaultClearedOnlyByDisposeOrReset := by
  intro s t hf hst
  obtain ⟨-, rfl⟩ | ⟨rest, ha, rfl⟩ | ⟨w, p, rest, ha, hx⟩ := step_next hst
  · exact .inl rfl
  · exact .inr ⟨rfl, .inl ⟨rest, ha⟩⟩
  · obtain rfl | ⟨c, rfl⟩ | ⟨i, hd, hr, rfl⟩ := execute_next hx
    · exact .inl rfl
    · left
      rw [raise_engine, latchFault_of_fault _ _ hf]
    · obtain rfl | rfl := hr.exempt_of_fault hf
      · exact .inr ⟨rfl, .inr ⟨w, p, rest, ha, hd⟩⟩
      · exact .inl rfl

/-- Settles O29: a failed command keeps PHASE and does not end with OK; one that runs was in the phase its check asks
for, and its body sets PHASE as tabled. -/
theorem phaseChangesOnlyAsTabled : Obligations.PhaseChangesOnlyAsTabled := by
  intro i s t hx
  obtain (⟨-, rfl⟩ | ⟨-, c, rfl⟩) | ⟨hr, rfl⟩ := exec_failed_or_run hx
  · simp
  · simp
  · refine ⟨fun hn => absurd rfl hn, fun _ => ?_⟩
    cases i with
    | init r c o => rfl
    | absorb d => exact ⟨hr.phase, by simp [bodyOf, hr.phase]⟩
    | digest d => exact ⟨hr.phase, rfl⟩
    | squeeze => exact ⟨hr.phase, by simp [bodyOf, hr.phase]⟩
    | fastsqz k => exact ⟨hr.phase, by simp [bodyOf, hr.phase]⟩
    | ksxor d => exact ⟨hr.phase, by simp [bodyOf, hr.phase]⟩
    | permute => exact ⟨hr.in_session, by simp [bodyOf]⟩
    | rdlane i => exact ⟨hr.in_session, by simp [bodyOf]⟩
    | wrlane i v => exact ⟨hr.in_session, by simp [bodyOf]⟩
    | dispose => rfl
    | stat => rfl

/-- Settles O30: a failed command writes FAULT and CAUSE on the first fault and nothing else but LAST; a body writes its
own registers. -/
theorem registersWrittenOnlyByTheirWriters : Obligations.RegistersWrittenOnlyByTheirWriters := by
  intro i s t hx
  obtain (⟨-, rfl⟩ | ⟨hf, c, rfl⟩) | ⟨-, rfl⟩ := exec_failed_or_run hx
  · simp
  · simp [latchFault_of_not_fault, hf]
  · cases i <;> simp [bodyOf, Instr.opcode]

/-- Settles O21: the fields lie where the STATUS word appends them, PENDLEN's eight bits hold a length up to 198, and
each answer of a word is a response. -/
theorem statusWordLayout : Obligations.StatusWordLayout := by
  refine ⟨fun e hp => ?_, fun _ h => h.pending_length_le, by decide, fun s t w p hx => ?_⟩
  · refine ⟨statusWord_phase e, statusWord_fault e, statusWord_reserved_low e, statusWord_cause e,
      statusWord_reserved_high e, ?_, statusWord_last e⟩
    rw [statusWord_pendlen, BitVec.toNat_ofNat]
    omega
  · obtain rfl | ⟨c, rfl⟩ | ⟨i, -, -, rfl⟩ := execute_next hx
    · exact ⟨_, rfl⟩
    · exact ⟨_, rfl⟩
    · exact ⟨_, rfl⟩

end Sys2Proof.Proofs
end

section
/-! Proofs about 20_memory.md: the command channel's bytes, by way of the decoder's answer to an encoded command; the
steps the model refuses; and the state byte view. -/

namespace Sys2Proof

/-! ### Decoding an encoded command -/

theorem opcField_encode (i : Instr) : opcField (encode i).1 = i.opcode.byte := by
  cases i with
  | init r c o => exact Laws.OpcodeField.init r c o
  | absorb d => exact Laws.OpcodeField.absorb d
  | digest d => exact Laws.OpcodeField.digest d
  | squeeze => exact Laws.OpcodeField.squeeze
  | fastsqz k => exact Laws.OpcodeField.fastsqz k
  | ksxor d => exact Laws.OpcodeField.ksxor d
  | permute => exact Laws.OpcodeField.permute
  | rdlane n => exact Laws.OpcodeField.rdlane n
  | wrlane n v => exact Laws.OpcodeField.wrlane n v
  | dispose => exact Laws.OpcodeField.dispose
  | stat => exact Laws.OpcodeField.stat

theorem columnOk_encode_and_payload_length {i : Instr} (h : i.wf = true) :
    columnOk i.opcode (encode i).1 = true ∧ (encode i).2.length = plen (encode i).1 := by
  cases i with
  | init r c o => exact Laws.ColumnKept.init r c o h
  | absorb d => exact Laws.ColumnKept.absorb d h
  | digest d => exact Laws.ColumnKept.digest d h
  | squeeze => exact Laws.ColumnKept.squeeze h
  | fastsqz k => exact Laws.ColumnKept.fastsqz k h
  | ksxor d => exact Laws.ColumnKept.ksxor d h
  | permute => exact Laws.ColumnKept.permute h
  | rdlane n => exact Laws.ColumnKept.rdlane n h
  | wrlane n v => exact Laws.ColumnKept.wrlane n v h
  | dispose => exact Laws.ColumnKept.dispose h
  | stat => exact Laws.ColumnKept.stat h

/-- A lane index keeps its value in the five bits of IDX (R93). -/
theorem laneIndex_mod (n : Fin 25) : n.val % 32 = n.val := Nat.mod_eq_of_lt (by omega)

/-- The operands assembled from an encoded command are its own (R93). -/
theorem assembleOperands_encode (i : Instr) : assembleOperands i.opcode (encode i).1 (encode i).2 = .ok i := by
  cases i with
  | init r c o =>
    simp [assembleOperands, encode, Instr.opcode, List.drop_append, List.take_of_length_le, List.drop_of_length_le]
  | rdlane n => simp [assembleOperands, encode, Instr.opcode, laneIndex_mod]
  | wrlane n v => simp [assembleOperands, encode, Instr.opcode, laneIndex_mod, List.take_of_length_le]
  | fastsqz k => simp [assembleOperands, encode, Instr.opcode]
  | absorb d => rfl
  | digest d => rfl
  | squeeze => rfl
  | ksxor d => rfl
  | permute => rfl
  | dispose => rfl
  | stat => rfl

/-- A word and payload of the right length with an assigned opcode whose column is kept decode to the operands assembled
from them. -/
theorem decode_of_column {w : Word32} {p : List Byte} {op : Opcode} (hlen : p.length = plen w)
    (hop : opcField w = op.byte) (hcol : columnOk op w = true) : decode w p = assembleOperands op w p := by
  simp [decode, hlen, hop, hcol]

theorem decode_encode {i : Instr} (h : i.wf = true) : decode (encode i).1 (encode i).2 = .ok i := by
  obtain ⟨hcol, hlen⟩ := columnOk_encode_and_payload_length h
  rw [decode_of_column hlen (opcField_encode i) hcol, assembleOperands_encode]

/-! ### The channel's bytes -/

theorem payload_length_of_decode_ok {w : Word32} {p : List Byte} {i : Instr} (h : decode w p = .ok i) :
    p.length = plen w := by
  by_contra hlen
  simp [decode, hlen] at h

/-- A word's four bytes and a payload it decodes with, followed by any bytes, are read back (R65, R94). -/
theorem decodeBytes_leBytes_append {w : Word32} {p : List Byte} {i : Instr} (h : decode w p = .ok i)
    (rest : List Byte) : decodeBytes (leBytes 4 w ++ (p ++ rest)) = .ok (i, rest) := by
  have word : (leBytes 4 w ++ (p ++ rest)).take 4 = leBytes 4 w := List.take_left' (leBytes_length 4 w)
  have tail : (leBytes 4 w ++ (p ++ rest)).drop 4 = p ++ rest := List.drop_left' (leBytes_length 4 w)
  have hlen := payload_length_of_decode_ok h
  have payload : (p ++ rest).take (plen w) = p := List.take_left' hlen
  have left : (p ++ rest).drop (plen w) = rest := List.drop_left' hlen
  simp [decodeBytes, word, tail, payload, left, h]

/-! ### Which words and payloads are refused -/

/-- Operand assembly rejects a lane index only, never a payload's length. -/
theorem assembleOperands_ne_payloadLength (op : Opcode) (w : Word32) (p : List Byte) :
    assembleOperands op w p ≠ .error .payloadLength := by
  cases op with
  | rdlane => unfold assembleOperands; split_ifs <;> nofun
  | wrlane => unfold assembleOperands; split_ifs <;> nofun
  | init | absorb | digest | squeeze | fastsqz | ksxor | permute | dispose | stat => nofun

theorem decode_payloadLength_iff {w : Word32} {p : List Byte} :
    decode w p = .error .payloadLength ↔ p.length ≠ plen w := by
  refine ⟨fun h hlen => ?_, fun h => by simp [decode, h]⟩
  rw [decode, if_neg (not_not.mpr hlen)] at h
  split at h
  · cases h
  · split at h
    · exact assembleOperands_ne_payloadLength _ w p h
    · cases h

end Sys2Proof

namespace Sys2Proof.Machine

/-- Executing a word is refused exactly where its payload is not PLEN bytes (R76): no command refuses, and a word that
is no command takes its exception. -/
theorem execute_refused_iff {w : Word32} {p : List Byte} {s : State} :
    (∃ r, execute w p s = .refused r) ↔ p.length ≠ plen w := by
  refine ⟨fun ⟨r, h⟩ => ?_, fun h => ⟨_, execute_of_payloadLength h s⟩⟩
  unfold execute at h
  split at h
  next i _ => exact absurd h (exec_ne_refused i s r)
  next hd => exact decode_payloadLength_iff.mp hd
  all_goals cases h

/-! ### State bytes -/

/-- Bit `n` of the byte mask of R60. -/
theorem getLsbD_byteMask (n : Nat) : (0xFF : Lane).getLsbD n = decide (n < 8) := by
  change (BitVec.ofNat 64 (2 ^ 8 - 1)).getLsbD n = _
  rw [BitVec.getLsbD_ofNat, Nat.testBit_two_pow_sub_one]
  simp
  omega

/-- Byte `b` of a lane after its byte `a` was cleared and replaced (R60). -/
theorem laneByte_replace (L : Lane) (v : Byte) {a b : Nat} (ha : a < 8) (hb : b < 8) :
    ((L &&& ~~~((0xFF : Lane) <<< (8 * a))) ||| (v.setWidth 64 <<< (8 * a))).extractLsb' (8 * b) 8 =
      if b = a then v else L.extractLsb' (8 * b) 8 := by
  apply BitVec.eq_of_getLsbD_eq
  intro n hn
  have inLane : 8 * b + n < 64 := by omega
  simp only [BitVec.getLsbD_extractLsb', BitVec.getLsbD_or, BitVec.getLsbD_and, BitVec.getLsbD_not,
    BitVec.getLsbD_shiftLeft, BitVec.getLsbD_setWidth, getLsbD_byteMask, hn, inLane]
  obtain rfl | hlt | hgt : b = a ∨ b < a ∨ a < b := by omega
  · simp [hn, show n < 64 by omega]
  · simp [hn, show 8 * b + n < 8 * a by omega, show b ≠ a by omega]
  · have above : 8 ≤ 8 * b + n - 8 * a := by omega
    simp [hn, show ¬ 8 * b + n < 8 * a by omega, above.not_gt, BitVec.getLsbD_of_ge v _ above, show b ≠ a by omega]

/-- The byte written is read back from its lane, and every other byte is as before (R60). -/
theorem stateByte_setStateByte (A : Lanes) {k : Nat} (j : Nat) (v : Byte) (hk : k < 200) :
    stateByte (setStateByte A k v) j = if j = k then v else stateByte A j := by
  unfold stateByte setStateByte
  by_cases hlane : k / 8 = j / 8
  · rw [hlane, Vector.getElem?_setIfInBounds_self_of_lt (by omega), Option.getD_some,
      laneByte_replace _ v (Nat.mod_lt k (by decide)) (Nat.mod_lt j (by decide))]
    have same : j % 8 = k % 8 ↔ j = k := by omega
    simp only [same]
  · rw [Vector.getElem?_setIfInBounds_ne hlane, if_neg (by rintro rfl; exact hlane rfl)]

end Sys2Proof.Machine

namespace Sys2Proof.Proofs

open Sys2Proof.Machine

/-- Settles O3: a well-formed command's word and payload decode to it, so its channel bytes are read back. -/
theorem channelBytesDecodeWithRest : Obligations.ChannelBytesDecodeWithRest := by
  intro i rest h
  rw [encodeBytes, List.append_assoc]
  exact decodeBytes_leBytes_append (decode_encode h) rest

/-- Settles O11: reset is never refused, the two broken duties always are, and a command exactly for its payload's
length. -/
theorem refusedExactlyOnHostViolation : Obligations.RefusedExactlyOnHostViolation := by
  intro s a rest ha
  rw [step_cons ha]
  cases a with
  | command w p => simpa [perform] using execute_refused_iff
  | reset => simp [perform]
  | commandBeforeResponse w p => simp [perform]
  | resetDuringCommand => simp [perform]

/-- Settles O40: the lane of the byte written holds it in the byte's place. -/
theorem stateByteWriteThenRead : Obligations.StateByteWriteThenRead :=
  fun A _ j v hk _ => stateByte_setStateByte A j v hk

end Sys2Proof.Proofs
end

section
/-! Proofs about 30_encoding.md. First the decoder inverted, the words as numbers, and what a word answers where the
invariants hold, with the statements about single commands. Then the pseudo-instructions of R100: what extraction,
repeated squeezes, padding and the keystream come to, free of their loops; what the expansions are made of; and what a
list of one kind of command does to a session. -/

namespace Sys2Proof

/-! ### Little-endian bytes, read and written back -/

/-- Byte strings of one length with one little-endian value are equal (R16). -/
theorem eq_of_leNat_eq {s t : List Byte} (hlen : s.length = t.length) (h : leNat s = leNat t) : s = t := by
  induction s generalizing t with
  | nil => exact (List.eq_nil_of_length_eq_zero hlen.symm).symm
  | cons a as ih =>
    cases t with
    | nil => cases hlen
    | cons b bs =>
      have ha := a.isLt
      have hb := b.isLt
      simp only [leNat] at h
      obtain rfl : a = b := BitVec.eq_of_toNat_eq (by omega)
      rw [ih (Nat.succ.inj hlen) (by omega)]

/-- Bytes that fit in `w` bits are the bytes of their value. -/
theorem leBytes_ofNat_leNat {w : Nat} (s : List Byte) (h : 8 * s.length ≤ w) :
    leBytes s.length (BitVec.ofNat w (leNat s)) = s := by
  have hlt : leNat s < 2 ^ (8 * s.length) := by simpa [Nat.pow_mul] using leNat_lt s
  refine eq_of_leNat_eq (leBytes_length ..) ?_
  rw [leNat_leBytes, BitVec.toNat_ofNat, Nat.mod_mod_of_dvd _ (Nat.pow_dvd_pow 2 h), Nat.mod_eq_of_lt hlt]

theorem leBytes_le32 {s : List Byte} (h : s.length = 4) : leBytes 4 (le32 s) = s := by
  simpa [h, le32] using leBytes_ofNat_leNat (w := 32) s (by omega)

theorem leBytes_le64 {s : List Byte} (h : s.length = 8) : leBytes 8 (le64 s) = s := by
  simpa [h, le64] using leBytes_ofNat_leNat (w := 64) s (by omega)

/-! ### What decodes is the encoding of what it decodes to -/

/-- Everything a word and payload that decode have passed: the payload's length, the opcode, its column, and operand
assembly. -/
theorem decode_ok {w : Word32} {p : List Byte} {i : Instr} (h : decode w p = .ok i) :
    ∃ op, p.length = plen w ∧ opcField w = op.byte ∧ columnOk op w = true ∧ assembleOperands op w p = .ok i := by
  have hlen := payload_length_of_decode_ok h
  rw [decode, if_neg (not_not.mpr hlen)] at h
  split at h
  · cases h
  next op hop =>
    split at h
    next hcol => exact ⟨op, hlen, ofByte_eq_some hop, hcol, h⟩
    · cases h

/-- PLEN of a word with an assigned opcode (R94). -/
theorem plen_of_opcField {w : Word32} {op : Opcode} (h : opcField w = op.byte) :
    plen w = if op.hasPayload then (lenField w).toNat else 0 := by
  simp [plen, h]

/-- Every column asks for RSV 0 (R95). -/
theorem rsvField_of_columnOk {op : Opcode} {w : Word32} (h : columnOk op w = true) : rsvField w = 0 :=
  eq_of_beq (Bool.and_elim_left h)

/-- INIT's three operands are the twelve bytes of its payload (R93). -/
theorem leBytes_le32_of_length_twelve {p : List Byte} (h : p.length = 12) :
    leBytes 4 (le32 (p.take 4)) ++ leBytes 4 (le32 ((p.drop 4).take 4)) ++ leBytes 4 (le32 ((p.drop 8).take 4)) =
      p := by
  have rest : (p.drop 8).take 4 = p.drop 8 := List.take_of_length_le (by simp [h])
  rw [leBytes_le32 (by simp [h]), leBytes_le32 (by simp [h]), leBytes_le32 (by simp [h]), rest, ← List.take_add,
    List.take_append_drop]

/-- Operands assembled from a word and its payload encode to that word and payload: each column fixes the fields that
are no operand. -/
theorem encode_assembleOperands {op : Opcode} {w : Word32} {p : List Byte} {i : Instr} (hlen : p.length = plen w)
    (hop : opcField w = op.byte) (hcol : columnOk op w = true) (h : assembleOperands op w p = .ok i) :
    i.wf = true ∧ encode i = (w, p) := by
  have hrsv := rsvField_of_columnOk hcol
  have word : wordOf (lenField w) 0 (idxField w) op.byte = w := by rw [← hrsv, ← hop, wordOf_fields]
  have hmax : (lenField w).toNat ≤ 65535 := Nat.le_of_lt_succ (lenField w).isLt
  rw [plen_of_opcField hop] at hlen
  cases op with
  | init =>
    obtain ⟨hidx, hl⟩ : idxField w = 0 ∧ lenField w = 12 := by simpa [columnOk, hrsv] using hcol
    cases h
    rw [hl] at hlen word
    rw [hidx] at word
    exact ⟨rfl, Prod.ext word (leBytes_le32_of_length_twelve hlen)⟩
  | absorb | digest | ksxor =>
    have hidx : idxField w = 0 := by simpa [columnOk, hrsv] using hcol
    replace hlen : p.length = (lenField w).toNat := hlen
    have hl : BitVec.ofNat 16 p.length = lenField w := by rw [hlen, BitVec.ofNat_toNat, BitVec.setWidth_eq]
    cases h
    rw [hidx, ← hl] at word
    exact ⟨decide_eq_true (hlen.trans_le hmax), Prod.ext word rfl⟩
  | fastsqz =>
    have hidx : idxField w = 0 := by simpa [columnOk, hrsv] using hcol
    cases h
    rw [hidx] at word
    exact ⟨rfl, Prod.ext word (List.eq_nil_of_length_eq_zero hlen).symm⟩
  | squeeze | permute | dispose | stat =>
    obtain ⟨hidx, hl⟩ : idxField w = 0 ∧ lenField w = 0 := by simpa [columnOk, hrsv] using hcol
    cases h
    rw [hidx, hl] at word
    exact ⟨rfl, Prod.ext word (List.eq_nil_of_length_eq_zero hlen).symm⟩
  | rdlane =>
    have hl : lenField w = 0 := by simpa [columnOk, hrsv] using hcol
    rw [assembleOperands] at h
    split at h
    · cases h
      rw [hl] at word
      rw [encode, BitVec.ofNat_toNat, BitVec.setWidth_eq]
      exact ⟨rfl, Prod.ext word (List.eq_nil_of_length_eq_zero hlen).symm⟩
    · cases h
  | wrlane =>
    have hl : lenField w = 8 := by simpa [columnOk, hrsv] using hcol
    rw [assembleOperands] at h
    split at h
    · cases h
      rw [hl] at hlen word
      replace hlen : p.length = 8 := hlen
      rw [encode, BitVec.ofNat_toNat, BitVec.setWidth_eq, List.take_of_length_le (Nat.le_of_eq hlen)]
      exact ⟨rfl, Prod.ext word (leBytes_le64 hlen)⟩
    · cases h

theorem encode_of_decode {w : Word32} {p : List Byte} {i : Instr} (h : decode w p = .ok i) :
    i.wf = true ∧ encode i = (w, p) := by
  obtain ⟨op, hlen, hop, hcol, hass⟩ := decode_ok h
  exact encode_assembleOperands hlen hop hcol hass

/-! ### The encoded words as numbers -/

/-- The fields of a word stand at bits 16, 13, 8 and 0 (R91). -/
theorem wordOf_toNat (len : BitVec 16) (rsv : BitVec 3) (idx : BitVec 5) (opc : BitVec 8) :
    (wordOf len rsv idx opc).toNat = len.toNat <<< 16 ||| rsv.toNat <<< 13 ||| idx.toNat <<< 8 ||| opc.toNat := by
  simp only [wordOf, BitVec.toNat_append, Nat.shiftLeft_or_distrib, ← Nat.shiftLeft_add]

/-- The word of a command that brings `n` data bytes (R96). -/
theorem wordOf_ofNat_toNat {n : Nat} (h : n ≤ 65535) (opc : BitVec 8) :
    (wordOf (BitVec.ofNat 16 n) 0 0 opc).toNat = (n <<< 16) ||| opc.toNat := by
  simp [wordOf_toNat, Nat.mod_eq_of_lt (Nat.lt_succ_of_le h)]

/-- The payload opcodes, as numbers (R94). -/
theorem plen_eq (w : Word32) : plen w =
    if w.toNat % 256 = 0x01 ∨ w.toNat % 256 = 0x02 ∨ w.toNat % 256 = 0x03 ∨ w.toNat % 256 = 0x06 ∨ w.toNat % 256 = 0x09
    then w.toNat / 65536 else 0 := by
  rw [← opcField_toNat, ← lenField_toNat]
  cases h : Opcode.ofByte (opcField w) with
  | none =>
    have := ofByte_eq_none.mp h
    rw [if_neg (by omega)]
    simp [plen, h]
  | some op =>
    have hop := ofByte_eq_some h
    rw [plen_of_opcField hop, hop]
    cases op <;> rfl

end Sys2Proof

namespace Sys2Proof.Machine

open Sys2Proof.Safety

/-! ### What a word answers where the invariants hold -/

/-- Whatever a word answers, the host's further actions are untouched and there is one response more, its STATUS that of
the engine after it (R71, R90). -/
theorem execute_one_response {w : Word32} {p : List Byte} {s t : State} (h : execute w p s = .next t) :
    t.actions = s.actions ∧ ∃ data, t.responses = s.responses ++ [⟨statusWord t.engine, data⟩] := by
  obtain rfl | ⟨c, rfl⟩ | ⟨i, -, -, rfl⟩ := execute_next h
  · exact ⟨rfl, _, rfl⟩
  · exact ⟨rfl, _, rfl⟩
  · exact ⟨rfl, _, rfl⟩

/-- With PLEN payload bytes and the invariants a word is neither refused nor does it fault. -/
theorem execute_completes {w : Word32} {p : List Byte} {s : State} (h : Inv s) (hlen : p.length = plen w) :
    ∃ t, execute w p s = .next t := by
  cases hx : execute w p s with
  | next t => exact ⟨t, rfl⟩
  | fault f =>
    obtain ⟨hp, ho⟩ := execute_fault hx
    exact absurd (h.sessionOk hp) (ne_true_of_eq_false ho)
  | refused r => exact absurd hlen (execute_refused_iff.mp ⟨r, hx⟩)

/-- A command with PLEN payload bytes is one step, which takes it from the host's actions and answers once (R68, R71,
R90). -/
theorem step_command {w : Word32} {p : List Byte} {rest : List HostAction} {s : State} (h : Inv s)
    (ha : s.actions = .command w p :: rest) (hlen : p.length = plen w) :
    ∃ t data, step s = .next t ∧ t.actions = rest ∧ t.responses = s.responses ++ [⟨statusWord t.engine, data⟩] := by
  obtain ⟨t, hx⟩ := execute_completes (h.withActions rest) hlen
  obtain ⟨hacts, data, hresp⟩ := execute_one_response hx
  exact ⟨t, data, by rw [step_cons ha]; exact hx, hacts, hresp⟩

end Sys2Proof.Machine

namespace Sys2Proof.Proofs

open Sys2Proof.Machine Sys2Proof.Safety

/-- Settles O1: the encoded word keeps its opcode's column, and its fields and payload are the command's operands. -/
theorem decodeOfEncodeIsIdentity : Obligations.DecodeOfEncodeIsIdentity :=
  fun _ h => decode_encode h

/-- Settles O2: the column of the opcode fixes every field of the word that is no operand. -/
theorem encodeOfDecodeIsIdentity : Obligations.EncodeOfDecodeIsIdentity :=
  fun _ _ _ h => encode_of_decode h

/-- Settles O4: each word is its fields at their places, and a length up to 65535 fits LEN. -/
theorem encodedWordsAsListed : Obligations.EncodedWordsAsListed := by
  refine ⟨fun _ _ _ => rfl, fun d hd => ?_, rfl, fun k => ?_, rfl, fun i => ?_, fun i v => ?_, rfl, rfl⟩
  · exact ⟨wordOf_ofNat_toNat hd _, wordOf_ofNat_toNat hd _, wordOf_ofNat_toNat hd _⟩
  · simp [encode, wordOf_toNat]
  · simp [encode, wordOf_toNat, laneIndex_mod]
  · simp [encode, wordOf_toNat, laneIndex_mod]

/-- Settles O5: each word's fields are read off it. -/
theorem sampleWordsDecode : Obligations.SampleWordsDecode :=
  ⟨rfl, rfl, rfl, rfl, rfl, rfl, rfl⟩

/-- Settles O6: the payload opcodes are the five R94 names, and a command's step leaves the actions after it. -/
theorem payloadLengthRule : Obligations.PayloadLengthRule := by
  refine ⟨plen_eq, fun s w p rest h ha hlen => ?_⟩
  obtain ⟨t, -, hst, hacts, -⟩ := step_command h ha hlen
  exact ⟨t, hst, hacts⟩

/-- Settles O12: under the invariants a word of the right payload length is neither refused nor does it fault. -/
theorem everyCommandCompletesWithOneResponse : Obligations.EveryCommandCompletesWithOneResponse :=
  fun _ _ _ _ h ha hlen => step_command h ha hlen

/-- Settles O15: an error and a refusal answer no data, and a body that runs answers its own. -/
theorem responseDataLengths : Obligations.ResponseDataLengths := by
  intro s t w p h hx
  obtain rfl | ⟨c, rfl⟩ | ⟨i, hd, hr, rfl⟩ := execute_next hx
  · exact ⟨[], rfl, fun _ => rfl, nofun⟩
  · exact ⟨[], rfl, fun _ => rfl, nofun⟩
  · refine ⟨_, rfl, fun hn => absurd rfl hn, fun _ => ⟨i, hd, ?_⟩⟩
    cases i with
    | digest d => exact extract_length (h.session (hr.phase.trans_ne (by decide))).rateBytes_range.1 ..
    | squeeze => exact squeezeOp_length (h.session (hr.phase.trans_ne (by decide))).rateBytes_range.1 ..
    | ksxor d => exact ksxorLoop_length d _
    | rdlane i => exact leBytes_length 8 _
    | init | absorb | fastsqz | permute | wrlane | dispose | stat => rfl

end Sys2Proof.Proofs

namespace Sys2Proof.Machine

/-! ### Extraction in closed form -/

theorem passes_of_le {R n : Nat} (hn : 1 ≤ n) (h : n ≤ R) : passes R n = 1 :=
  Nat.div_eq_of_lt_le (by omega) (by omega)

theorem passes_add {R : Nat} (hR : 1 ≤ R) (n : Nat) : passes R (R + n) = passes R n + 1 := by
  rw [passes, show R + n + R - 1 = n + R - 1 + R by omega, Nat.add_div_right _ hR, passes]

theorem one_le_passes {R n : Nat} (hR : 1 ≤ R) (hn : 1 ≤ n) : 1 ≤ passes R n :=
  (Nat.one_le_div_iff hR).mpr (by omega)

theorem stateBytes_take {m R : Nat} (h : m ≤ R) (A : Lanes) : (stateBytes A R).take m = stateBytes A m := by
  rw [stateBytes, stateBytes, ← List.map_take, List.take_range, Nat.min_eq_left h]

/-- Output that fits one block is the front of the state (R213). -/
theorem spongeOutput_of_le {R n : Nat} (hn : 1 ≤ n) (h : n ≤ R) (A : Lanes) :
    spongeOutput R n A = stateBytes A n := by
  simp [spongeOutput, passes_of_le hn h, stateBytes_take h]

/-- Longer output is one block of the state, then the output after F (R213). -/
theorem spongeOutput_add {R : Nat} (hR : 1 ≤ R) (n : Nat) (A : Lanes) :
    spongeOutput R (R + n) A = stateBytes A R ++ spongeOutput R n (keccakF A) := by
  simp [spongeOutput, passes_add hR, List.range_succ_eq_map, List.flatMap_map, List.take_append]

/-- With a counter that covers what is missing, the loop puts out the missing bytes, F between passes (R192). -/
theorem extractLoop_eq {R : Nat} (hR : 1 ≤ R) (n fuel : Nat) (A : Lanes) (out : List Byte)
    (hlt : out.length < n) (hf : n ≤ out.length + fuel) :
    extractLoop R n fuel A out =
      (keccakF^[passes R (n - out.length) - 1] A, out ++ spongeOutput R (n - out.length) A) := by
  induction fuel generalizing A out with
  | zero => omega
  | succ k ih =>
    by_cases hle : n - out.length ≤ R
    · have last : (out ++ stateBytes A (n - out.length)).length = n := by simp; omega
      simp [extractLoop, Nat.min_eq_right hle, last, passes_of_le (by omega) hle, spongeOutput_of_le (by omega) hle]
    · have more : (out ++ stateBytes A R).length ≠ n := by simp; omega
      obtain ⟨m, hm⟩ : ∃ m, n - out.length = R + m := ⟨n - out.length - R, by omega⟩
      have left : n - (out ++ stateBytes A R).length = m := by simp; omega
      have pos := one_le_passes hR (show 1 ≤ m by omega)
      rw [extractLoop, Nat.min_eq_left (by omega), if_neg more, ih _ _ (by simp; omega) (by simp; omega), left, hm,
        passes_add hR, spongeOutput_add hR, List.append_assoc, ← Function.iterate_succ_apply,
        Nat.add_sub_cancel, Nat.succ_eq_add_one, Nat.sub_add_cancel pos]

/-- Extract(n) in closed form: the sponge's output, and F once less than passes (R192, R213). -/
theorem extract_eq {R : Nat} (hR : 1 ≤ R) (n : Nat) (A : Lanes) :
    extract R n A = (keccakF^[passes R n - 1] A, spongeOutput R n A) := by
  cases n with
  | zero =>
    have none : passes R 0 = 0 := Nat.div_eq_of_lt (by omega)
    simp [extract, extractLoop, spongeOutput, none]
  | succ n => simpa [extract] using extractLoop_eq hR (n + 1) (n + 1) A [] (by simp) (by simp)

/-! ### Squeezes -/

/-- A squeeze evaluates F once per pass (R193, R325). -/
theorem squeezeOp_lanes {R n : Nat} (hR : 1 ≤ R) (hn : 1 ≤ n) (A : Lanes) :
    (squeezeOp R n A).1 = keccakF^[passes R n] A := by
  rw [squeezeOp, extract_eq hR, ← Function.iterate_succ_apply, Nat.succ_eq_add_one,
    Nat.sub_add_cancel (one_le_passes hR hn)]

/-- k squeezes evaluate F k times as often as one (R208, R325). -/
theorem squeezeTimes_eq {R n : Nat} (hR : 1 ≤ R) (hn : 1 ≤ n) (k : Nat) (A : Lanes) :
    squeezeTimes R n k A = keccakF^[k * passes R n] A := by
  induction k generalizing A with
  | zero => simp [squeezeTimes]
  | succ k ih => rw [squeezeTimes, ih, squeezeOp_lanes hR hn, ← Function.iterate_add_apply, Nat.succ_mul]

theorem squeezeTimes_add (R n j k : Nat) (A : Lanes) :
    squeezeTimes R n (j + k) A = squeezeTimes R n k (squeezeTimes R n j A) := by
  induction j generalizing A with
  | zero => simp [squeezeTimes]
  | succ j ih => rw [Nat.add_right_comm, squeezeTimes, ih, squeezeTimes]

/-- FASTSQZ j, then FASTSQZ k, is FASTSQZ j + k (R209). -/
theorem fastSqueeze_fastSqueeze (e : Engine) (j k : Nat) :
    (e.fastSqueeze j).fastSqueeze k = e.fastSqueeze (j + k) := by
  have cursor : (if 1 ≤ k then e.outBytes else if 1 ≤ j then e.outBytes else e.ksptr) =
      if 1 ≤ j + k then e.outBytes else e.ksptr := by
    split_ifs <;> omega
  unfold Engine.fastSqueeze
  rw [squeezeTimes_add, ← cursor]
  rfl

/-! ### Padding and DIGEST -/

/-- What Pad appends to a message whose last block holds `used` bytes (R170). -/
def padBytes (R used : Nat) : List Byte :=
  if R - used = 1 then [0x81] else 0x01 :: (List.replicate (R - used - 2) 0x00 ++ [0x80])

theorem pad_eq_append (M : List Byte) (R : Nat) : pad M R = M ++ padBytes R (M.length % R) := by
  by_cases h : R - M.length % R = 1 <;> simp [pad, padBytes, h]

/-- Absorbing a part of a message first changes nothing in what its padded whole comes to. -/
theorem absorbBlocks_pad_append {R : Nat} (hR : 1 ≤ R) (A : Lanes) (x y : List Byte) :
    absorbBlocks R (absorbBlocks R A x).1 (pad ((absorbBlocks R A x).2 ++ y) R) =
      absorbBlocks R A (pad (x ++ y) R) := by
  have samePad : ((absorbBlocks R A x).2 ++ y).length % R = (x ++ y).length % R := by
    have whole := Nat.div_add_mod x.length R
    rw [absorbBlocks_eq hR, List.length_append, List.length_append, List.length_drop]
    rw [show x.length - R * (x.length / R) = x.length % R by omega, Nat.mod_add_mod]
  rw [pad_eq_append, pad_eq_append, samePad, List.append_assoc, absorbBlocks_append hR, List.append_assoc]

/-- ABSORB of a part, then DIGEST of the rest, is DIGEST of the whole (R214). -/
theorem digest_absorb {e : Engine} (hR : 1 ≤ e.rateBytes) (x y : List Byte) :
    (e.absorb x).digest y = e.digest (x ++ y) := by
  have absorbed := absorbBlocks_pad_append hR e.lanes (e.pending ++ x) y
  rw [List.append_assoc] at absorbed
  unfold Engine.digest
  rw [← absorbed]
  rfl

/-- DIGEST of an engine that has absorbed nothing outputs `KeccakSponge` of its bytes (R213). -/
theorem digest_of_zero {e : Engine} (hR : 1 ≤ e.rateBytes) (hlanes : e.lanes = Vector.replicate 25 0)
    (hpending : e.pending = []) (m : List Byte) :
    (e.digest m).2 = keccakSponge e.rateBytes e.outBytes m := by
  simp [Engine.digest, hlanes, hpending, absorbBlocks_eq hR, extract_eq hR, keccakSponge, spongeState]

/-! ### KSXOR and the keystream -/

/-- The byte KSPTR points to is the first unused one (R240). -/
theorem keystreamByte_zero {e : Engine} (h : e.ksptr < e.outBytes) : keystreamByte e 0 = e.ksblk.getD e.ksptr 0 := by
  simp [keystreamByte, h]

/-- Moving the cursor past a byte uses that byte (R241). -/
theorem keystreamByte_succ (e : Engine) (i : Nat) :
    keystreamByte { e with ksptr := e.ksptr + 1 } i = keystreamByte e (i + 1) := by
  have cursor : e.ksptr + 1 + i = e.ksptr + (i + 1) := by omega
  unfold keystreamByte
  rw [← cursor]
  rfl

theorem squeezedBlock_succ (R n j : Nat) (A : Lanes) :
    squeezedBlock R n (j + 1) A = squeezedBlock R n j (squeezeOp R n A).1 := rfl

/-- A refill uses no keystream byte: the block it latches is the next in the stream (R240, R241). -/
theorem keystreamByte_refill {e : Engine} (hn : 1 ≤ e.outBytes) (i : Nat) :
    keystreamByte e.refill i = keystreamByte e i := by
  unfold Engine.refill
  split
  next exhausted =>
    simp only [keystreamByte, latchBlock_ksptr, latchBlock_outBytes, latchBlock_ksblk, latchBlock_lanes,
      latchBlock_rateBytes, exhausted, Nat.zero_add, Nat.add_mod_left, Nat.add_div_left i hn, Nat.succ_sub_one,
      show ¬ e.outBytes + i < e.outBytes by omega, if_false]
    split
    next inBlock => rw [Nat.div_eq_of_lt inBlock, Nat.mod_eq_of_lt inBlock]; rfl
    next beyond =>
      have pos : 1 ≤ i / e.outBytes := (Nat.one_le_div_iff hn).mpr (by omega)
      rw [← squeezedBlock_succ, Nat.sub_add_cancel pos]
  · rfl

/-! ### What the expansions are made of -/

/-- The chunks joined are the message, if there may be as many as it has bytes. -/
theorem payloadChunks_flatten (fuel : Nat) (m : List Byte) (h : m.length ≤ fuel) :
    (payloadChunks fuel m).flatten = m := by
  induction fuel generalizing m with
  | zero => exact (List.eq_nil_of_length_eq_zero (Nat.le_zero.mp h)).symm
  | succ n ih =>
    rw [payloadChunks]
    split
    next empty => exact (List.isEmpty_iff.mp empty).symm
    next nonempty =>
      have pos := List.length_pos_iff.mpr (mt List.isEmpty_iff.mpr nonempty)
      have one_le : 1 ≤ maxPayload := by decide
      rw [List.flatten_cons, ih _ (by rw [List.length_drop]; omega), List.take_append_drop]

theorem payloadChunks_length_le {fuel : Nat} {m c : List Byte} (h : c ∈ payloadChunks fuel m) :
    c.length ≤ maxPayload := by
  induction fuel generalizing m with
  | zero => cases h
  | succ n ih =>
    rw [payloadChunks] at h
    split at h
    · cases h
    · obtain rfl | h := List.mem_cons.mp h
      · exact List.length_take_le ..
      · exact ih h

/-- The counts of FASTSQZL's commands (R100). -/
def fastsqzCounts (k : Nat) : List (BitVec 16) :=
  List.replicate (k / 65535) 65535 ++ if k % 65535 ≠ 0 then [BitVec.ofNat 16 (k % 65535)] else []

theorem pseudoFastsqzl_eq (k : Nat) : pseudoFastsqzl k = (fastsqzCounts k).map .fastsqz := by
  unfold pseudoFastsqzl fastsqzCounts
  split <;> simp

theorem fastsqzCounts_sum (k : Nat) : ((fastsqzCounts k).map (·.toNat)).sum = k := by
  have whole := Nat.div_add_mod k 65535
  have fits : k % 65535 % 65536 = k % 65535 := by omega
  unfold fastsqzCounts
  split
  · simp [fits]; omega
  · simp; omega

/-- The lanes of `v` at the indices `is` written to a lane file. -/
def writeLanes (v : Lanes) (is : List (Fin 25)) (A : Lanes) : Lanes := is.foldl (fun B i => writeLane B i v[i]) A

theorem getElem_writeLanes (v : Lanes) (is : List (Fin 25)) (A : Lanes) (j : Fin 25) :
    (writeLanes v is A)[j] = if j ∈ is then v[j] else A[j] := by
  induction is generalizing A with
  | nil => simp [writeLanes]
  | cons i is ih =>
    have step : writeLanes v (i :: is) A = writeLanes v is (writeLane A i v[i]) := rfl
    rw [step, ih]
    by_cases hij : i = j
    · subst hij; simp [writeLane]
    · have : i.val ≠ j.val := fun h => hij (Fin.ext h)
      simp [writeLane, this, Ne.symm hij]

/-- Writing every lane leaves the lanes written. -/
theorem writeLanes_of_forall_mem (v : Lanes) {is : List (Fin 25)} (h : ∀ j, j ∈ is) (A : Lanes) :
    writeLanes v is A = v := by
  refine Vector.ext fun n hn => ?_
  have lane := getElem_writeLanes v is A ⟨n, hn⟩
  rwa [if_pos (h _)] at lane

/-- Counting to `a * b` is counting `a` times to `b`. -/
theorem map_range_mul {α : Type} (f : Nat → α) (a b : Nat) :
    (List.range (a * b)).map f = (List.range a).flatMap fun i => (List.range b).map fun j => f (i * b + j) := by
  induction a with
  | zero => simp
  | succ a ih => simp [Nat.succ_mul, List.range_add, ih, List.range_succ, Function.comp_def]

/-- The 200 state bytes are those of the lanes, eight by eight (R60). -/
theorem flatMap_leBytes_lanes (A : Lanes) :
    ((List.finRange 25).flatMap fun i => leBytes 8 (readLane A i)) = stateBytes A 200 := by
  have byte (i : Fin 25) : leBytes 8 (readLane A i) = (List.range 8).map fun j => stateByte A (i.val * 8 + j) := by
    refine List.map_congr_left fun j hj => ?_
    have hj := List.mem_range.mp hj
    have hi : (i.val * 8 + j) / 8 = i.val := by omega
    have hr : (i.val * 8 + j) % 8 = j := by omega
    simp [stateByte, readLane, hi, hr]
  simp only [byte]
  rw [stateBytes, show 200 = 25 * 8 from rfl, map_range_mul, ← List.map_coe_finRange_eq_range (n := 25),
    List.flatMap_map]

/-! ### Every expansion is encodable -/

theorem wf_of_mem_pseudoAbsorbl {m : List Byte} : ∀ i ∈ pseudoAbsorbl m, i.wf = true := by
  intro i hi
  obtain ⟨c, hc, rfl⟩ := List.mem_map.mp hi
  exact (wf_absorb c).mpr (payloadChunks_length_le hc)

theorem wf_of_mem_pseudoDigestl {m : List Byte} : ∀ i ∈ pseudoDigestl m, i.wf = true := by
  unfold pseudoDigestl
  split
  next short => simpa using short
  next long =>
    refine List.forall_mem_append.mpr ⟨wf_of_mem_pseudoAbsorbl, List.forall_mem_singleton.mpr ?_⟩
    rw [wf_digest, List.length_drop, Nat.sub_sub_self (Nat.le_of_not_le long)]

theorem wf_of_mem_pseudoFastsqzl {k : Nat} : ∀ i ∈ pseudoFastsqzl k, i.wf = true := by
  rw [pseudoFastsqzl_eq]
  intro i hi
  obtain ⟨c, -, rfl⟩ := List.mem_map.mp hi
  rfl

theorem wf_of_mem_pseudoHash {r c o : Word32} {m : List Byte} : ∀ i ∈ pseudoHash r c o m, i.wf = true :=
  List.forall_mem_cons.mpr ⟨rfl, wf_of_mem_pseudoDigestl⟩

theorem wf_of_mem_pseudoKeystream {L : Nat} (h : L ≤ 65535) : ∀ i ∈ pseudoKeystream L, i.wf = true := by
  simpa [pseudoKeystream] using h

theorem wf_of_mem_pseudoKsopen {r c o : Word32} {P K : List Byte} : ∀ i ∈ pseudoKsopen r c o P K, i.wf = true :=
  List.forall_mem_cons.mpr ⟨rfl, List.forall_mem_append.mpr ⟨wf_of_mem_pseudoAbsorbl, wf_of_mem_pseudoDigestl⟩⟩

theorem wf_of_mem_pseudoConfirm {r c o : Word32} {P : List Byte} {N : Nat} :
    ∀ i ∈ pseudoConfirm r c o P N, i.wf = true := by
  have fast : ∀ i ∈ (if N > 2 then pseudoFastsqzl (N - 2) else []), i.wf = true := by
    split
    · exact wf_of_mem_pseudoFastsqzl
    · nofun
  have last : ∀ i ∈ (if N > 1 then [Instr.squeeze] else []), i.wf = true := by
    split
    · exact List.forall_mem_singleton.mpr rfl
    · nofun
  simp only [pseudoConfirm, List.forall_mem_cons, List.forall_mem_append]
  exact ⟨rfl, ⟨⟨wf_of_mem_pseudoAbsorbl, rfl, nofun⟩, fast⟩, last⟩

theorem wf_of_mem_pseudoLdstate {v : Lanes} : ∀ i ∈ pseudoLdstate v, i.wf = true := by
  intro i hi
  obtain ⟨n, -, rfl⟩ := List.mem_map.mp hi
  rfl

theorem wf_of_mem_pseudoStstate : ∀ i ∈ pseudoStstate, i.wf = true := by
  intro i hi
  obtain ⟨n, -, rfl⟩ := List.mem_map.mp hi
  rfl

end Sys2Proof.Machine

namespace Sys2Proof.Safety

open Sys2Proof.Machine

/-- KSXOR XORs its data with the next keystream bytes (R241). -/
theorem SessionInv.ksxorLoop_data {m : Nat} {e : Engine} (h : SessionInv m e) (d : List Byte) :
    (Machine.ksxorLoop d e).2 = d.mapIdx fun i b => b ^^^ keystreamByte e i := by
  induction d generalizing e with
  | nil => rfl
  | cons b bs ih =>
    have stream := keystreamByte_refill h.one_le_outBytes
    have first := (keystreamByte_zero h.refill_ksptr_lt).symm.trans (stream 0)
    have rest := ih (h.refill.withKsptr h.refill_ksptr_lt)
    simp only [keystreamByte_succ, stream] at rest
    rw [Machine.ksxorLoop, List.mapIdx_cons, first, rest]

/-! ### A session goes on -/

@[simp] theorem lastData_complete (s : State) (r : Engine × List Byte) : lastData (s.complete r) = some r.2 := by
  simp [lastData]

/-- A command that runs, DISPOSE apart, leaves the engine live in the phase its body sets. -/
theorem Live.complete {i : Instr} {s : State} {p q : Phase} (h : Live s p) (hr : MayRun i s) (hd : i ≠ .dispose)
    (hq : (bodyOf i s.engine).1.phase = q) : Live (s.complete (bodyOf i s.engine)) q :=
  ⟨h.inv.complete hr, (bodyOf_fault_cause hd s.engine).1.trans h.unlocked, hq⟩

theorem Live.inAnySession {s : State} {p : Phase} (h : Live s p) (hp : p ≠ .uninit) : InAnySession s :=
  ⟨h.unlocked, h.phase.trans_ne hp⟩

theorem Live.session {s : State} {p : Phase} (h : Live s p) (hp : p ≠ .uninit) : SessionInv s.maxOutBytes s.engine :=
  h.inv.session (h.phase.trans_ne hp)

/-! ### ABSORBL and DIGESTL -/

/-- ABSORBL leaves the engine of one absorption of all its bytes, LAST aside (R100). -/
theorem execAll_pseudoAbsorbl (m : List Byte) {s : State} (h : Live s .absorbing) :
    ∃ t, execAll (pseudoAbsorbl m) s = .next t ∧ Live t .absorbing ∧
      t.engine = { s.engine.absorb m with last := t.engine.last } := by
  obtain ⟨t, hx, hl, he⟩ := execAll_absorb (payloadChunks m.length m) h
  rw [payloadChunks_flatten _ m le_rfl] at he
  exact ⟨t, hx, hl, he⟩

/-- DIGESTL leaves the engine, and returns the data, of one DIGEST of all its bytes (R100). -/
theorem execAll_pseudoDigestl (m : List Byte) {s : State} (h : Live s .absorbing) :
    ∃ t, execAll (pseudoDigestl m) s = .next t ∧ t.engine = { (s.engine.digest m).1 with last := .ok } ∧
      lastData t = some (s.engine.digest m).2 := by
  have digest {u : State} (hu : Live u .absorbing) (d : List Byte) :
      execAll [.digest d] u = .next (u.complete (u.engine.digest d)) :=
    execAll_cons_next (exec_of_mayRun (i := .digest d) (hu.inSession (by decide)))
  unfold pseudoDigestl
  split
  · exact ⟨_, digest h m, rfl, lastData_complete ..⟩
  · obtain ⟨t, hx, hl, he⟩ := execAll_pseudoAbsorbl (m.take (m.length - maxPayload)) h
    have whole := digest_absorb (h.one_le_rateBytes (by decide)) (m.take (m.length - maxPayload))
      (m.drop (m.length - maxPayload))
    rw [List.take_append_drop] at whole
    refine ⟨_, (execAll_append_next hx).trans (digest hl _), ?_, ?_⟩
    · rw [complete_engine, he, ← whole]
      rfl
    · rw [lastData_complete, he, ← whole]
      rfl

/-! ### FASTSQZL -/

/-- A list of FASTSQZs does to a session what one of their sum does, LAST aside (R208, R209). -/
theorem execAll_fastsqz (ks : List (BitVec 16)) {s : State} (h : Live s .squeezing) :
    ∃ t, execAll (ks.map .fastsqz) s = .next t ∧
      t.engine = { s.engine.fastSqueeze (ks.map (·.toNat)).sum with last := t.engine.last } := by
  induction ks generalizing s with
  | nil => exact ⟨s, rfl, rfl⟩
  | cons k ks ih =>
    have run := h.inSession (by decide)
    obtain ⟨t, hx, he⟩ := ih (h.complete (i := .fastsqz k) run nofun h.phase)
    refine ⟨t, ?_, ?_⟩
    · rw [List.map_cons, execAll_cons_next (exec_of_mayRun (i := .fastsqz k) run)]
      exact hx
    · rw [List.map_cons, List.sum_cons, ← fastSqueeze_fastSqueeze]
      exact he

/-! ### LDSTATE and STSTATE -/

/-- A list of WRLANEs writes its lanes and LAST and nothing else (R152). -/
theorem execAll_wrlane (v : Lanes) (is : List (Fin 25)) {s : State} (h : InAnySession s) :
    ∃ t, execAll (is.map fun i => .wrlane i v[i]) s = .next t ∧
      t.engine =
        { s.engine with
          lanes := writeLanes v is s.engine.lanes
          last := if is = [] then s.engine.last else .ok } := by
  induction is generalizing s with
  | nil => exact ⟨s, rfl, rfl⟩
  | cons i is ih =>
    obtain ⟨t, hx, he⟩ := ih (s := s.complete (bodyOf (.wrlane i v[i]) s.engine)) ⟨h.unlocked, h.in_session⟩
    refine ⟨t, ?_, ?_⟩
    · rw [List.map_cons, execAll_cons_next (exec_of_mayRun (i := .wrlane i v[i]) h)]
      exact hx
    · rw [he]
      simp [bodyOf, writeLanes]

/-- A list of RDLANEs returns the bytes of its lanes, in order (R151). -/
theorem execAll_rdlane (is : List (Fin 25)) {s : State} (h : InAnySession s) :
    ∃ t rs, execAll (is.map .rdlane) s = .next t ∧ t.responses = s.responses ++ rs ∧
      (rs.map (·.data)).flatten = is.flatMap fun i => leBytes 8 (readLane s.engine.lanes i) := by
  induction is generalizing s with
  | nil => exact ⟨s, [], rfl, (List.append_nil _).symm, rfl⟩
  | cons i is ih =>
    obtain ⟨t, rs, hx, hr, hd⟩ := ih (s := s.complete (bodyOf (.rdlane i) s.engine)) ⟨h.unlocked, h.in_session⟩
    refine ⟨t, _ :: rs, ?_, hr.trans (List.append_assoc ..), ?_⟩
    · rw [List.map_cons, execAll_cons_next (exec_of_mayRun (i := .rdlane i) h)]
      exact hx
    · rw [List.map_cons, List.flatten_cons, hd]
      rfl

/-- LDSTATE writes all 25 lanes and LAST and nothing else (R100). -/
theorem execAll_pseudoLdstate (v : Lanes) {s : State} (h : InAnySession s) :
    ∃ t, execAll (pseudoLdstate v) s = .next t ∧ t.engine = { s.engine with lanes := v, last := .ok } := by
  obtain ⟨t, hx, he⟩ := execAll_wrlane v (List.finRange 25) h
  rw [writeLanes_of_forall_mem v List.mem_finRange, if_neg (by decide)] at he
  exact ⟨t, hx, he⟩

/-- STSTATE returns the 200 state bytes (R100). -/
theorem execAll_pseudoStstate {s : State} (h : InAnySession s) :
    ∃ t, execAll pseudoStstate s = .next t ∧ dataFrom s.responses.length t = stateBytes s.engine.lanes 200 := by
  obtain ⟨t, rs, hx, hr, hd⟩ := execAll_rdlane (List.finRange 25) h
  refine ⟨t, hx, ?_⟩
  rw [dataFrom, hr, List.drop_left, hd, flatMap_leBytes_lanes]

/-! ### HASH and KEYSTREAM -/

/-- HASH ends with OK and returns `KeccakSponge` of its bytes (R100, R213). -/
theorem execAll_pseudoHash {r c o : Word32} (m : List Byte) {s : State} (h : Inv s) (hf : s.engine.fault = false)
    (hl : legalSpec s.maxOutBytes r.toNat c.toNat o.toNat = true) :
    ∃ t, execAll (pseudoHash r c o m) s = .next t ∧ t.engine.last = .ok ∧
      lastData t = some (keccakSponge (r.toNat / 8) (o.toNat / 8) m) := by
  have start := live_startSession h hf hl
  obtain ⟨t, hx, he, hd⟩ := execAll_pseudoDigestl m start
  have hash := digest_of_zero (start.one_le_rateBytes (by decide)) rfl rfl m
  have rate : (s.complete (s.engine.startSession r c o, [])).engine.rateBytes = r.toNat / 8 :=
    SessionInv.startSession_rateBytes hl s.engine
  rw [hash, rate] at hd
  refine ⟨t, ?_, by rw [he], hd⟩
  rw [pseudoHash, execAll_cons_next (exec_of_mayRun (i := .init r c o) ⟨hf, hl⟩)]
  exact hx

/-- KEYSTREAM L returns the next L keystream bytes: it XORs them with zeros (R100, R241). -/
theorem execAll_pseudoKeystream (L : Nat) {s : State} (h : Live s .squeezing) :
    ∃ t, execAll (pseudoKeystream L) s = .next t ∧
      lastData t = some ((List.range L).map (keystreamByte s.engine)) := by
  refine ⟨_, execAll_cons_next (exec_of_mayRun (i := .ksxor (List.replicate L 0)) (h.inSession (by decide))), ?_⟩
  have data := (h.session (by decide)).ksxorLoop_data (List.replicate L 0)
  rw [lastData_complete, bodyOf, data]
  exact congrArg some (List.ext_getElem (by simp) (by simp))

end Sys2Proof.Safety

namespace Sys2Proof.Proofs

open Sys2Proof.Machine Sys2Proof.Safety

/-- Settles O60: the pieces of a long operation add up to it, as ABSORBs join, FASTSQZ counts sum and WRLANEs and
RDLANEs run through all lanes. -/
theorem pseudoExpansionsDoOneOperation : Obligations.PseudoExpansionsDoOneOperation := by
  refine ⟨fun _ => rfl, fun s m h => ?_, fun s m h => ?_, fun s k h => ?_, fun _ _ _ _ m h hf hl =>
    execAll_pseudoHash m h hf hl, fun _ L h _ => execAll_pseudoKeystream L h, fun s p v h hp => ?_,
    fun r c o m K k N L v hL => ?_⟩
  · obtain ⟨t, hx, -, he⟩ := execAll_pseudoAbsorbl m h
    exact ⟨t, hx, he⟩
  · obtain ⟨t, hx, he, hd⟩ := execAll_pseudoDigestl m h
    exact ⟨t, _, hx, exec_of_mayRun (i := .digest m) (h.inSession (by decide)), he, by rw [hd, lastData_complete]; rfl⟩
  · obtain ⟨t, hx, he⟩ := execAll_fastsqz (fastsqzCounts k) h
    have live := h.session (by decide)
    have lanes := squeezeTimes_eq live.rateBytes_range.1 live.one_le_outBytes k s.engine.lanes
    rw [fastsqzCounts_sum, Engine.fastSqueeze, lanes] at he
    exact ⟨t, pseudoFastsqzl_eq k ▸ hx, he⟩
  · have session := h.inAnySession hp
    obtain ⟨t, hx, he⟩ := execAll_pseudoLdstate v session
    obtain ⟨u, hu, hd⟩ := execAll_pseudoStstate (s := t) ⟨by rw [he]; exact session.unlocked,
      by rw [he]; exact session.in_session⟩
    rw [he] at hd
    exact ⟨t, u, hx, he, hu, hd⟩
  · simp only [List.forall_mem_append]
    exact ⟨⟨⟨⟨⟨⟨⟨⟨⟨List.forall_mem_singleton.mpr rfl, wf_of_mem_pseudoAbsorbl⟩, wf_of_mem_pseudoDigestl⟩,
      wf_of_mem_pseudoFastsqzl⟩, wf_of_mem_pseudoHash⟩, wf_of_mem_pseudoKeystream hL⟩, wf_of_mem_pseudoKsopen⟩,
      wf_of_mem_pseudoConfirm⟩, wf_of_mem_pseudoLdstate⟩, wf_of_mem_pseudoStstate⟩

end Sys2Proof.Proofs
end

section
/-! Proofs about 40_permutation.md: lanes under XOR and rotation; the five steps by coordinates; each step, each round and F
injective; F(F(0)); the raw accesses to a lane; and last the statements. -/

namespace Sys2Proof.Machine

/-! ### XOR of lanes: with `BitVec.xor_assoc` and `BitVec.xor_comm` these cancel what stands twice -/

theorem xor_left_comm (u v w : Lane) : u ^^^ (v ^^^ w) = v ^^^ (u ^^^ w) := by
  rw [← BitVec.xor_assoc, BitVec.xor_comm u v, BitVec.xor_assoc]

theorem xor_cancel_left (v w : Lane) : v ^^^ (v ^^^ w) = w := by
  rw [← BitVec.xor_assoc, BitVec.xor_self, BitVec.zero_xor]

/-! ### Rotations of a lane -/

/-- Bit `b` of a lane rotated left by `s` is bit `b - s`, which mod 64 is bit `b + 63s` (R15). -/
theorem getLsbD_rotateLeft_lane (v : Lane) (s : Nat) {b : Nat} (hb : b < 64) :
    (v.rotateLeft s).getLsbD b = v.getLsbD ((b + 63 * s) % 64) := by
  rw [BitVec.getLsbD_rotateLeft]
  by_cases h : b < s % 64
  · simp only [h, decide_true, cond_true]
    congr 1
    omega
  · simp only [h, hb, decide_false, decide_true, cond_false, Bool.true_and]
    congr 1
    omega

theorem rotateLeft_rotateLeft (v : Lane) (s t : Nat) : (v.rotateLeft s).rotateLeft t = v.rotateLeft (s + t) := by
  apply BitVec.eq_of_getLsbD_eq
  intro b hb
  rw [getLsbD_rotateLeft_lane _ _ hb, getLsbD_rotateLeft_lane _ _ (Nat.mod_lt _ (by decide)),
    getLsbD_rotateLeft_lane _ _ hb]
  congr 1
  omega

theorem rotateLeft_xor (v w : Lane) (s : Nat) : (v ^^^ w).rotateLeft s = v.rotateLeft s ^^^ w.rotateLeft s := by
  apply BitVec.eq_of_getLsbD_eq
  intro b hb
  simp only [BitVec.getLsbD_xor, getLsbD_rotateLeft_lane _ _ hb]

/-- Whole turns of a lane leave it as it is. -/
theorem rotateLeft_mul_64 (v : Lane) (n : Nat) : v.rotateLeft (64 * n) = v := by
  apply BitVec.eq_of_getLsbD_eq
  intro b hb
  rw [getLsbD_rotateLeft_lane _ _ hb]
  congr 1
  omega

theorem rotateLeft_injective (s : Nat) : Function.Injective fun v : Lane => v.rotateLeft s := by
  refine Function.LeftInverse.injective (g := fun v => v.rotateLeft (63 * s)) fun v => ?_
  simp only [rotateLeft_rotateLeft, show s + 63 * s = 64 * s by omega, rotateLeft_mul_64]

/-- `rotl64` is the word's rotate-left (R15). -/
theorem rotl64_eq_rotateLeft (v : Lane) {s : Nat} (hs : s < 64) : rotl64 v s = v.rotateLeft s := by
  rw [rotl64]
  split
  next h => rw [h]; exact (rotateLeft_mul_64 v 0).symm
  next => rw [BitVec.rotateLeft_def, Nat.mod_eq_of_lt hs]

/-! ### The five steps by coordinates -/

/-- Coordinates count mod 5 (R22). -/
theorem laneAt_congr (A : Lanes) {x x' y y' : Nat} (hx : x % 5 = x' % 5) (hy : y % 5 = y' % 5) :
    laneAt A x y = laneAt A x' y' := by
  rw [← laneAt_mod A x y, hx, hy, laneAt_mod]

theorem thetaC_congr (A : Lanes) {x x' : Nat} (hx : x % 5 = x' % 5) : thetaC A x = thetaC A x' := by
  simp only [thetaC, laneAt_congr A hx rfl]

theorem thetaD_congr (A : Lanes) {x x' : Nat} (hx : x % 5 = x' % 5) : thetaD A x = thetaD A x' := by
  rw [thetaD, thetaD, thetaC_congr A (show (x + 4) % 5 = (x' + 4) % 5 by omega),
    thetaC_congr A (show (x + 1) % 5 = (x' + 1) % 5 by omega)]

theorem thetaD_eq (A : Lanes) (x : Nat) : thetaD A x = thetaC A (x + 4) ^^^ (thetaC A (x + 1)).rotateLeft 1 := by
  rw [thetaD, rotl64_eq_rotateLeft _ (by decide)]

@[simp] theorem laneAt_theta (A : Lanes) (x y : Nat) : laneAt (theta A) x y = laneAt A x y ^^^ thetaD A x := by
  rw [theta, laneAt_lanesOf, laneAt_mod, thetaD_congr A (Nat.mod_mod x 5)]

@[simp] theorem laneAt_rho (A : Lanes) (x y : Nat) : laneAt (rho A) x y = (laneAt A x y).rotateLeft (rot x y) := by
  rw [rho, laneAt_lanesOf, laneAt_mod, rot_mod, rotl64_eq_rotateLeft _ (rot_lt x y)]

@[simp] theorem laneAt_pi (A : Lanes) (x y : Nat) : laneAt (pi A) x y = laneAt A (x + 3 * y) x := by
  rw [pi, laneAt_lanesOf]
  exact laneAt_congr A (by omega) (by omega)

@[simp] theorem laneAt_chi (A : Lanes) (x y : Nat) :
    laneAt (chi A) x y = laneAt A x y ^^^ (~~~(laneAt A (x + 1) y) &&& laneAt A (x + 2) y) := by
  have column (k : Nat) : laneAt A (x % 5 + k) (y % 5) = laneAt A (x + k) y := laneAt_congr A (by omega) (by omega)
  rw [chi, laneAt_lanesOf, laneAt_mod, column, column]

@[simp] theorem laneAt_iota (A : Lanes) (i : Fin 24) (x y : Nat) :
    laneAt (iota A i) x y = if x % 5 = 0 ∧ y % 5 = 0 then laneAt A 0 0 ^^^ roundConstant i else laneAt A x y := by
  have origin : x % 5 + 5 * (y % 5) = 0 ↔ x % 5 = 0 ∧ y % 5 = 0 := by omega
  simp only [iota, laneAt, Vector.getElem_set, eq_comm (a := 0), origin]

/-- π moves the lane at (x,y) to (y, 2x+3y) (R133). -/
theorem laneAt_pi_moved (A : Lanes) (x y : Nat) : laneAt (pi A) y (2 * x + 3 * y) = laneAt A x y := by
  rw [laneAt_pi]
  exact laneAt_congr A (by omega) rfl

/-- The source table of R133: `LANE[n]` after π is `LANE[piSource[n]]` before it. -/
def piSource : Vector Nat 25 :=
  #v[0, 6, 12, 18, 24, 3, 9, 10, 16, 22, 1, 7, 13, 19, 20, 4, 5, 11, 17, 23, 2, 8, 14, 15, 21]

theorem piSource_coordinates : ∀ n : Fin 25,
    (n.val % 5 + 3 * (n.val / 5)) % 5 = piSource[n] % 5 % 5 ∧ n.val % 5 % 5 = piSource[n] / 5 % 5 := by decide

/-! ### θ is injective

It is enough to see what θ makes of the column parities: as polynomials over GF(2) in the column X and the bit Z, with
X⁵ = 1 and Z⁶⁴ = 1, they are multiplied by 1 + X + X⁴Z. Squaring doubles every exponent, so six squarings of that factor
give 1 + X⁴ + X, and the cube of this is 1. -/

/-- What θ makes of the column parities for `k = 1`, and its iterates for the powers of two. -/
def parityStep (k : Nat) (C : Nat → Lane) (x : Nat) : Lane := C x ^^^ (C (x + 4 * k) ^^^ (C (x + k)).rotateLeft k)

theorem thetaC_theta (A : Lanes) : thetaC (theta A) = parityStep 1 (thetaC A) := by
  funext x
  rw [parityStep, ← thetaD_eq]
  simp only [thetaC, laneAt_theta, BitVec.xor_assoc, BitVec.xor_comm, xor_left_comm, BitVec.xor_self, BitVec.zero_xor]

/-- Squaring doubles the exponents: over GF(2) the mixed terms cancel. -/
theorem parityStep_parityStep (k : Nat) (C : Nat → Lane) : parityStep k (parityStep k C) = parityStep (2 * k) C := by
  funext x
  simp only [parityStep, rotateLeft_xor, rotateLeft_rotateLeft]
  rw [show x + k + 4 * k = x + 4 * k + k by omega, show x + 4 * k + 4 * k = x + 4 * (2 * k) by omega,
    show x + k + k = x + 2 * k by omega, ← Nat.two_mul k]
  simp only [BitVec.xor_assoc, BitVec.xor_comm, xor_left_comm, xor_cancel_left, BitVec.xor_self, BitVec.zero_xor]

/-- Where the bits turn whole times, for columns mod 5: (1 + X + X⁴)³ = 1. -/
theorem parityStep_128_parityStep_64 {C : Nat → Lane} (hC : ∀ x, C (x % 5) = C x) :
    parityStep 128 (parityStep 64 C) = C := by
  funext x
  have column {m n : Nat} (h : m % 5 = n % 5) : C m = C n := by rw [← hC m, h, hC n]
  have turn₁ (v : Lane) : v.rotateLeft 64 = v := rotateLeft_mul_64 v 1
  have turn₂ (v : Lane) : v.rotateLeft 128 = v := rotateLeft_mul_64 v 2
  simp only [parityStep, turn₁, turn₂]
  rw [column (show (x + 4 * 64) % 5 = (x + 1) % 5 by omega), column (show (x + 64) % 5 = (x + 4) % 5 by omega),
    column (show (x + 4 * 128) % 5 = (x + 2) % 5 by omega), column (show (x + 128) % 5 = (x + 3) % 5 by omega),
    column (show (x + 4 * 128 + 4 * 64) % 5 = (x + 3) % 5 by omega),
    column (show (x + 4 * 128 + 64) % 5 = (x + 1) % 5 by omega),
    column (show (x + 128 + 4 * 64) % 5 = (x + 4) % 5 by omega),
    column (show (x + 128 + 64) % 5 = (x + 2) % 5 by omega)]
  simp only [BitVec.xor_assoc, BitVec.xor_comm, xor_left_comm, xor_cancel_left, BitVec.xor_self, BitVec.xor_zero]

/-- The parities before θ are determined by those after it. -/
theorem parityStep_one_cancel {C C' : Nat → Lane} (hC : ∀ x, C (x % 5) = C x) (hC' : ∀ x, C' (x % 5) = C' x)
    (h : parityStep 1 C = parityStep 1 C') : C = C' := by
  have double {k : Nat} (hk : parityStep k C = parityStep k C') : parityStep (2 * k) C = parityStep (2 * k) C' := by
    rw [← parityStep_parityStep, hk, parityStep_parityStep]
  have h64 : parityStep 64 C = parityStep 64 C' := double (double (double (double (double (double h)))))
  rw [← parityStep_128_parityStep_64 hC, h64, parityStep_128_parityStep_64 hC']

theorem theta_injective : Function.Injective theta := by
  intro A B h
  have parity (A : Lanes) (x : Nat) : thetaC A (x % 5) = thetaC A x := thetaC_congr A (Nat.mod_mod x 5)
  have hC : thetaC A = thetaC B :=
    parityStep_one_cancel (parity A) (parity B) (by rw [← thetaC_theta, ← thetaC_theta, h])
  refine lanes_ext fun x y _ _ => ?_
  have lane : laneAt (theta A) x y = laneAt (theta B) x y := by rw [h]
  rw [laneAt_theta, laneAt_theta, thetaD, thetaD, hC] at lane
  exact (BitVec.xor_left_inj _).mp lane

/-! ### The other steps, a round and F are injective -/

theorem rho_injective : Function.Injective rho := by
  intro A B h
  refine lanes_ext fun x y _ _ => rotateLeft_injective (rot x y) ?_
  simp only [← laneAt_rho, h]

theorem pi_injective : Function.Injective pi := by
  intro A B h
  exact lanes_ext fun x y _ _ => by rw [← laneAt_pi_moved A, h, laneAt_pi_moved B]

/-- χ undone on the row `a b c d e`: the first lane from the five lanes χ makes of them. -/
theorem chi_row_undo (a b c d e : Lane) :
    (a ^^^ (~~~b &&& c)) ^^^ (~~~(b ^^^ (~~~c &&& d)) &&&
      ((c ^^^ (~~~d &&& e)) ^^^ (~~~(d ^^^ (~~~e &&& a)) &&& (e ^^^ (~~~a &&& b))))) = a := by
  have bits : ∀ a b c d e : Bool, ((a ^^ (!b && c)) ^^ (!(b ^^ (!c && d)) &&
      ((c ^^ (!d && e)) ^^ (!(d ^^ (!e && a)) && (e ^^ (!a && b)))))) = a := by decide
  apply BitVec.eq_of_getLsbD_eq
  intro n hn
  simp only [BitVec.getLsbD_xor, BitVec.getLsbD_and, BitVec.getLsbD_not, hn, decide_true, Bool.true_and]
  exact bits ..

theorem laneAt_eq_of_chi (A : Lanes) (x y : Nat) :
    laneAt A x y = laneAt (chi A) x y ^^^ (~~~laneAt (chi A) (x + 1) y &&&
      (laneAt (chi A) (x + 2) y ^^^ (~~~laneAt (chi A) (x + 3) y &&& laneAt (chi A) (x + 4) y))) := by
  have wrap₅ : laneAt A (x + 5) y = laneAt A x y := laneAt_congr A (by omega) rfl
  have wrap₆ : laneAt A (x + 6) y = laneAt A (x + 1) y := laneAt_congr A (by omega) rfl
  simp only [laneAt_chi, Nat.add_assoc, Nat.reduceAdd, wrap₅, wrap₆, chi_row_undo]

theorem chi_injective : Function.Injective chi := by
  intro A B h
  exact lanes_ext fun x y _ _ => by rw [laneAt_eq_of_chi A, h, ← laneAt_eq_of_chi B]

theorem iota_injective (i : Fin 24) : Function.Injective fun A => iota A i := by
  have twice : Function.Involutive fun A => iota A i := fun A => by simp [iota]
  exact twice.injective

theorem keccakRound_injective (i : Fin 24) : Function.Injective fun A => keccakRound A i :=
  (iota_injective i).comp (chi_injective.comp (pi_injective.comp (rho_injective.comp theta_injective)))

theorem foldl_injective {α ι : Type} {f : α → ι → α} (hf : ∀ i, Function.Injective fun a => f a i) (is : List ι) :
    Function.Injective fun a => is.foldl f a := by
  induction is with
  | nil => exact Function.injective_id
  | cons i is ih => exact ih.comp (hf i)

theorem keccakF_injective : Function.Injective keccakF := foldl_injective keccakRound_injective (List.finRange 24)

/-- There are finitely many lane files. -/
theorem finite_lanes : Finite Lanes :=
  have lanes : Function.Injective fun (A : Lanes) (n : Fin 25) => (A[n]).toFin := fun A B h =>
    Vector.ext fun n hn => BitVec.eq_of_toFin_eq (congrFun h ⟨n, hn⟩)
  Finite.of_injective _ lanes

theorem keccakF_bijective : Function.Bijective keccakF :=
  have := finite_lanes
  Finite.injective_iff_bijective.mp keccakF_injective

/-! ### F(F(0)) -/

/-- F(0), as 95_test_vectors.md V1 lists it. -/
def zeroPermuted : Lanes :=
  #v[0xF1258F7940E1DDE7, 0x84D5CCF933C0478A, 0xD598261EA65AA9EE, 0xBD1547306F80494D, 0x8B284E056253D057,
     0xFF97A42D7F8E6FD4, 0x90FEE5A0A44647C4, 0x8C5BDA0CD6192E76, 0xAD30A6F71B19059C, 0x30935AB7D08FFC64,
     0xEB5AA93F2317D635, 0xA9A6E6260D712103, 0x81A57C16DBCF555F, 0x43B831CD0347C826, 0x01F22F1A11A5569F,
     0x05E5635A21D9AE61, 0x64BEFEF28CC970F2, 0x613670957BC46611, 0xB87C5A554FD00ECB, 0x8C3EE88A1CCF32C8,
     0x940C7922AE3A2614, 0x1841F924A2C509E4, 0x16F53526E70465C2, 0x75F644E97F30A13B, 0xEAF1FF7B5CECA249]

theorem keccakF_zero : keccakF (Vector.replicate 25 0) = zeroPermuted := by decide +kernel

theorem getElem_keccakF_zeroPermuted : (keccakF zeroPermuted)[0] = 0x2D5C954DF96ECB3C := by decide +kernel

/-! ### Raw accesses to a lane -/

/-- A lane's bytes are the eight state bytes of its place (R60). -/
theorem leBytes_readLane (A : Lanes) (i : Fin 25) :
    leBytes 8 (readLane A i) = (List.range 8).map fun k => stateByte A (8 * i.val + k) := by
  refine List.map_congr_left fun k hk => ?_
  have hk := List.mem_range.mp hk
  have lane : (8 * i.val + k) / 8 = i.val := by omega
  have byte : (8 * i.val + k) % 8 = k := by omega
  simp [stateByte, readLane, lane, byte]

/-- A command that ends with OK answers its body's engine and data. -/
theorem complete_eq_answered (s : State) (r : Engine × List Byte) :
    s.complete r = Safety.answered s { r.1 with last := .ok } r.2 := rfl

theorem getElem_writeLane_self (A : Lanes) (i : Fin 25) (v : Lane) : (writeLane A i v)[i] = v := by
  simp [writeLane]

theorem getElem_writeLane_of_ne (A : Lanes) {i j : Fin 25} (v : Lane) (h : j ≠ i) : (writeLane A i v)[j] = A[j] := by
  simp [writeLane, Fin.val_ne_of_ne h.symm]

/-- A write to a lane keeps the state bytes outside it (R60, R152). -/
theorem stateByte_writeLane_of_ne (A : Lanes) {i : Fin 25} (v : Lane) {k : Nat} (h : k / 8 ≠ i.val) :
    stateByte (writeLane A i v) k = stateByte A k := by
  rw [stateByte, writeLane, Vector.getElem?_set_ne i.isLt h.symm, stateByte]

end Sys2Proof.Machine

namespace Sys2Proof.Proofs

open Sys2Proof.Machine Sys2Proof.Safety

/-- Settles O31: the steps by coordinates, with θ's parities and χ's neighbours taken mod 5. -/
theorem stepMappingsByCoordinates : Obligations.StepMappingsByCoordinates := by
  intro A x y hx hy
  refine ⟨?_, laneAt_rho A x y, ?_, ?_, fun i => ?_⟩
  · rw [laneAt_theta, thetaD_eq, ← thetaC_congr A (Nat.mod_mod (x + 4) 5), ← thetaC_congr A (Nat.mod_mod (x + 1) 5)]
    rfl
  · rw [laneAt_pi]
    exact laneAt_congr A (by omega) rfl
  · rw [laneAt_chi, ← laneAt_congr A (Nat.mod_mod (x + 1) 5) rfl, ← laneAt_congr A (Nat.mod_mod (x + 2) 5) rfl]
  · rw [laneAt_iota, Nat.mod_eq_of_lt hx, Nat.mod_eq_of_lt hy]

/-- Settles O33: the source of the lane at (y, 2x+3y) is at (x,y), and the table lists the sources. -/
theorem piMovesLanes : Obligations.PiMovesLanes := by
  refine fun A => ⟨laneAt_pi_moved A, fun n => ?_⟩
  obtain ⟨column, row⟩ := piSource_coordinates n
  rw [Fin.getElem_fin, getElem_eq_laneAt, laneAt_pi]
  exact laneAt_congr A column row

/-- Settles O34: π after ρ takes the source lane's own offset with it. -/
theorem fusedRhoPiEqualsTwoPasses : Obligations.FusedRhoPiEqualsTwoPasses := by
  refine fun A => lanes_ext fun x y hx hy => ?_
  rw [laneAt_pi, laneAt_rho, fusedRhoPi, laneAt_lanesOf, rotl64_eq_rotateLeft _ (rot_lt _ _), Nat.mod_eq_of_lt hx,
    Nat.mod_eq_of_lt hy]

/-- Settles O35: every step of a round is injective and there are finitely many lane files; F(F(0)) is not 0 by V1. -/
theorem keccakFIsAPermutation : Obligations.KeccakFIsAPermutation := by
  refine ⟨keccakF_bijective, fun h => ?_⟩
  rw [keccakF_zero] at h
  have lane := getElem_keccakF_zeroPermuted
  rw [h] at lane
  exact absurd lane (by decide)

/-- Settles O36: the checks of a raw access pass in a session, so its body runs. -/
theorem rawAccessResults : Obligations.RawAccessResults := by
  intro s hf hp
  have session : InAnySession s := ⟨hf, hp⟩
  refine ⟨?_, fun i => ?_, fun i v => ⟨writeLane s.engine.lanes i v, ?_, getElem_writeLane_self ..,
    fun j hj => getElem_writeLane_of_ne _ v hj, fun k hk => stateByte_writeLane_of_ne _ v hk⟩⟩
  · rw [exec_of_mayRun (i := .permute) session, complete_eq_answered, bodyOf]
  · rw [exec_of_mayRun (i := .rdlane i) session, complete_eq_answered, bodyOf, leBytes_readLane]
  · rw [exec_of_mayRun (i := .wrlane i v) session, complete_eq_answered, bodyOf]

/-- Settles O32, by running the walk of R132 and the LFSR of R137. -/
theorem tablesFollowTheirDerivations : Obligations.TablesFollowTheirDerivations :=
  ⟨by decide, by decide +kernel⟩

end Sys2Proof.Proofs
end

section
/-! The padding rule of 41_padding.md: how long Pad's output is, what byte it ends with, and that Unpad takes away what
Pad appends. -/

namespace Sys2Proof.Machine

/-! ### What Pad appends, and how long it is (R170, R171) -/

theorem padBytes_of_one_left {R used : Nat} (h : R - used = 1) : padBytes R used = [0x81] := if_pos h

theorem padBytes_of_more_left {R used : Nat} (h : R - used ≠ 1) :
    padBytes R used = 0x01 :: (List.replicate (R - used - 2) 0x00 ++ [0x80]) := if_neg h

/-- Pad fills the last block exactly. -/
theorem length_padBytes {R used : Nat} (h : used < R) : (padBytes R used).length = R - used := by
  by_cases one : R - used = 1
  · rw [padBytes_of_one_left one, one, List.length_singleton]
  · rw [padBytes_of_more_left one, List.length_cons, List.length_append, List.length_replicate, List.length_singleton]
    omega

theorem length_pad {R : Nat} (hR : 1 ≤ R) (M : List Byte) : (pad M R).length = R * (M.length / R + 1) := by
  have used : M.length % R < R := Nat.mod_lt _ hR
  have whole := Nat.div_add_mod M.length R
  rw [pad_eq_append, List.length_append, length_padBytes used, Nat.mul_add_one]
  omega

theorem getLast?_pad (M : List Byte) (R : Nat) :
    (pad M R).getLast? = some (if R - M.length % R = 1 then 0x81 else 0x80) := by
  rw [pad_eq_append]
  split
  next one => rw [padBytes_of_one_left one, List.getLast?_concat]
  next more => rw [padBytes_of_more_left more, ← List.cons_append, ← List.append_assoc, List.getLast?_concat]

/-! ### Unpad undoes Pad (R175) -/

theorem unpad_concat_merged (M : List Byte) : unpad (M ++ [0x81]) = some M := by
  simp [unpad]

/-- Behind the last byte 0x80 Unpad scans backward. -/
theorem unpad_concat_last (M : List Byte) : unpad (M ++ [0x80]) = unpadScan M.reverse := by
  simp [unpad]

theorem unpadScan_zeros_append (n : Nat) (bs : List Byte) :
    unpadScan (List.replicate n 0x00 ++ bs) = unpadScan bs := by
  induction n with
  | zero => rfl
  | succ n ih => rw [List.replicate_succ, List.cons_append, unpadScan, if_pos rfl, ih]

/-- The scan stops at the 0x01 that Pad wrote, so zeros at the end of the message are safe behind it. -/
theorem unpadScan_mark (M : List Byte) : unpadScan (0x01 :: M.reverse) = some M := by
  rw [unpadScan, if_neg (by decide), if_pos rfl, List.reverse_reverse]

theorem unpad_pad (M : List Byte) (R : Nat) : unpad (pad M R) = some M := by
  rw [pad_eq_append]
  by_cases one : R - M.length % R = 1
  · rw [padBytes_of_one_left one, unpad_concat_merged]
  · rw [padBytes_of_more_left one, ← List.cons_append, ← List.append_assoc, unpad_concat_last, List.reverse_append,
      List.reverse_cons, List.reverse_replicate, List.append_assoc, unpadScan_zeros_append, List.singleton_append,
      unpadScan_mark]

end Sys2Proof.Machine

namespace Sys2Proof.Proofs

open Sys2Proof.Machine

/-- Settles O37: Pad fills the last block, and each boundary case fixes how many bytes of it are left. -/
theorem paddingLengthAndBoundaryCases : Obligations.PaddingLengthAndBoundaryCases := by
  intro M R hR _
  refine ⟨length_pad hR M, fun oneLeft => ?_, fun h2 twoLeft => ?_, fun h2 full => ?_, fun rateOne => ?_⟩ <;>
    rw [pad_eq_append]
  · rw [oneLeft, padBytes_of_one_left (by omega)]
  · rw [twoLeft, padBytes_of_more_left (by omega), show R - (R - 2) - 2 = 0 by omega]
    rfl
  · rw [full, padBytes_of_more_left (by omega)]
    rfl
  · rw [rateOne, Nat.mod_one, padBytes_of_one_left rfl]

/-- Settles O38: the last byte says which of Pad's two forms Unpad has to take away. -/
theorem unpadRecoversMessage : Obligations.UnpadRecoversMessage := by
  intro M R _ _
  have distinct : (0x80 : Byte) ≠ 0x81 := by decide
  refine ⟨unpad_pad M R, ?_, ?_⟩ <;> rw [getLast?_pad, Option.some_inj]
  · rw [ite_eq_left_iff, imp_iff_not distinct, not_not]
  · rw [ite_eq_right_iff, imp_iff_not distinct.symm]

end Sys2Proof.Proofs
end

section
/-! Proofs about 42_sponge.md: bytes of little-endian values and XorBlock; AbsorbBlocks and Extract byte by byte; INIT's
operands; what lists of sponge commands do to a session; and last the statements. -/

namespace Sys2Proof

/-! ### Bytes of a little-endian value (R16) -/

theorem leNat_div_pow_mod (s : List Byte) (k : Nat) : leNat s / 256 ^ k % 256 = (s.getD k 0).toNat := by
  induction s generalizing k with
  | nil => simp [leNat]
  | cons b bs ih =>
    have hb := b.isLt
    cases k with
    | zero => simpa [leNat] using hb
    | succ k =>
      have tail : (b.toNat + 256 * leNat bs) / 256 = leNat bs := by omega
      rw [leNat, Nat.pow_succ', ← Nat.div_div_eq_div_mul, tail, ih, List.getD_cons_succ]

/-- Byte `k` of a lane read from at most eight bytes; the bytes that are missing count as zeros. -/
theorem le64_byte {s : List Byte} (hs : s.length ≤ 8) (k : Nat) :
    (le64 s).extractLsb' (8 * k) 8 = s.getD k 0 := by
  have fits : leNat s < 2 ^ 64 := (leNat_lt s).trans_le (Nat.pow_le_pow_right (by decide) hs)
  apply BitVec.eq_of_toNat_eq
  rw [BitVec.extractLsb'_toNat, le64, BitVec.toNat_ofNat, Nat.mod_eq_of_lt fits, Nat.shiftRight_eq_div_pow, Nat.pow_mul]
  exact leNat_div_pow_mod s k

end Sys2Proof

namespace Sys2Proof.Machine

open Sys2Proof.Safety

/-! ### XorBlock byte by byte (R190) -/

/-- Byte `k` of XorBlock's result, the block read as followed by zeros. -/
theorem stateByte_xorBlock (A : Lanes) (blk : List Byte) {k : Nat} (hk : k < 200) :
    stateByte (xorBlock A blk) k = stateByte A k ^^^ blk.getD k 0 := by
  have lane : k / 8 < 25 := by omega
  have pick : ((blk.drop (8 * (k / 8))).take 8).getD (k % 8) 0 = blk.getD k 0 := by
    rw [List.getD_eq_getElem?_getD, List.getElem?_take_of_lt (Nat.mod_lt k (by decide)), List.getElem?_drop,
      Nat.div_add_mod, ← List.getD_eq_getElem?_getD]
  simp only [stateByte, xorBlock, Vector.getElem?_eq_getElem lane, Vector.getElem_ofFn, Option.getD_some,
    Fin.getElem_fin, BitVec.extractLsb'_xor]
  rw [le64_byte (List.length_take_le ..), pick]

/-! ### AbsorbBlocks and Extract -/

/-- The remainder keeps the length of its input mod R (R191). -/
theorem absorbBlocks_remainder_length {R : Nat} (hR : 1 ≤ R) (A : Lanes) (buf : List Byte) :
    (absorbBlocks R A buf).2.length = buf.length % R := by
  have := Nat.div_add_mod buf.length R
  rw [absorbBlocks_eq hR, List.length_drop]
  omega

/-- A padded message is whole blocks, so nothing of it is left (R170, R204). -/
theorem absorbBlocks_pad_remainder {R : Nat} (hR : 1 ≤ R) (A : Lanes) (M : List Byte) :
    (absorbBlocks R A (pad M R)).2 = [] := by
  refine List.eq_nil_of_length_eq_zero ?_
  rw [absorbBlocks_remainder_length hR, length_pad hR, Nat.mul_mod_right]

theorem le_passes_mul {R : Nat} (hR : 1 ≤ R) (n : Nat) : n ≤ passes R n * R := by
  have := Nat.div_add_mod (n + R - 1) R
  have := Nat.mod_lt (n + R - 1) hR
  rw [passes, Nat.mul_comm]
  omega

/-- Byte `p` of the sponge's output is byte `p mod R` of the state after `p div R` evaluations of F (R192, R213). -/
theorem spongeOutput_eq_map {R : Nat} (hR : 1 ≤ R) (n : Nat) (A : Lanes) :
    spongeOutput R n A = (List.range n).map fun p => stateByte (keccakF^[p / R] A) (p % R) := by
  have pass (j : Nat) : stateBytes (keccakF^[j] A) R =
      (List.range R).map fun b => stateByte (keccakF^[(j * R + b) / R] A) ((j * R + b) % R) := by
    refine List.map_congr_left fun b hb => ?_
    have hb := List.mem_range.mp hb
    rw [Nat.mul_comm, Nat.mul_add_mod, Nat.mod_eq_of_lt hb, Nat.mul_add_div hR, Nat.div_eq_of_lt hb, Nat.add_zero]
  simp only [spongeOutput, pass]
  rw [← map_range_mul (fun p => stateByte (keccakF^[p / R] A) (p % R)), ← List.map_take, List.take_range,
    Nat.min_eq_left (le_passes_mul hR n)]

/-! ### INIT's operands (R201) -/

/-- The legal operands as R201 lists them: r and o in steps of 8, c what r leaves of 1600. -/
theorem legalSpec_iff_multiples (m r c o : Nat) : legalSpec m r c o = true ↔
    (∃ k, 1 ≤ k ∧ k ≤ 199 ∧ r = 8 * k) ∧ c = 1600 - r ∧ (∃ k, 1 ≤ k ∧ k ≤ m ∧ o = 8 * k) := by
  rw [legalSpec_iff]
  constructor
  · rintro ⟨hr, hc, hs, hr8, ho, ho8, hm⟩
    exact ⟨⟨r / 8, by omega⟩, by omega, o / 8, by omega⟩
  · rintro ⟨⟨k, hk⟩, hc, j, hj⟩
    omega

/-- `raise E`, on the first fault or a later one (R281). -/
theorem raise_eq_errorState (s : State) (c : Err) : s.raise c = errorState s c := by
  cases hf : s.engine.fault <;> simp [State.raise, State.respond, Engine.latchFault, errorState, answered, hf]

theorem exec_init_legal {s : State} {r c o : Word32} (hf : s.engine.fault = false)
    (hl : legalSpec s.maxOutBytes r.toNat c.toNat o.toNat = true) :
    exec (.init r c o) s = .next (answered s { s.engine.startSession r c o with last := .ok } []) :=
  exec_of_mayRun (i := .init r c o) ⟨hf, hl⟩

theorem exec_init_illegal {s : State} {r c o : Word32} (hf : s.engine.fault = false)
    (hl : ¬ legalSpec s.maxOutBytes r.toNat c.toNat o.toNat = true) :
    exec (.init r c o) s = .next (errorState s .invalidSpec) := by
  rw [exec_init, execInit, if_neg (ne_true_of_eq_false hf), if_neg hl, raise_eq_errorState]

/-! ### ABSORB's body -/

/-- ABSORB twice is ABSORB of both payloads joined (R215). -/
theorem absorb_absorb {e : Engine} (hR : 1 ≤ e.rateBytes) (x y : List Byte) :
    (e.absorb x).absorb y = e.absorb (x ++ y) := by
  have joined := absorbBlocks_append hR e.lanes (e.pending ++ x) y
  rw [List.append_assoc] at joined
  unfold Engine.absorb
  rw [← joined]
  rfl

theorem absorb_nil {e : Engine} (h : e.pending.length < e.rateBytes) : e.absorb [] = e := by
  unfold Engine.absorb
  rw [List.append_nil, absorbBlocks_of_lt _ h]

/-! ### A failed command -/

/-- After a failed command the engine is locked, its lanes, PENDING and PHASE as before (R281, R282). -/
theorem Failed.locked_and_kept {s t : State} (h : Failed s t) :
    t.engine.fault = true ∧ t.engine.lanes = s.engine.lanes ∧ t.engine.pending = s.engine.pending ∧
      t.engine.phase = s.engine.phase := by
  obtain ⟨hf, rfl⟩ | ⟨-, c, rfl⟩ := h
  · exact ⟨hf, rfl, rfl, rfl⟩
  · simp

end Sys2Proof.Machine

namespace Sys2Proof.Safety

open Sys2Proof.Machine

/-! ### Lists of commands -/

/-- Under the invariants every command answers a next state. -/
theorem Inv.exec_completes {s : State} (h : Inv s) (i : Instr) : ∃ t, exec i s = .next t := by
  cases hx : exec i s with
  | next t => exact ⟨t, rfl⟩
  | fault f =>
    obtain ⟨hp, ho⟩ := exec_fault hx
    exact absurd (h.sessionOk hp) (ne_true_of_eq_false ho)
  | refused r => exact absurd hx (exec_ne_refused i s r)

theorem Inv.failed {s t : State} (h : Inv s) (hx : Failed s t) : Inv t := by
  obtain ⟨-, rfl⟩ | ⟨-, c, rfl⟩ := hx
  · exact h.lockOut
  · exact h.raise c

/-- Where an ABSORB cannot run, none of a list of them does: the first leaves the engine locked (R282). -/
theorem execAll_absorb_of_not_inSession (ps : List (List Byte)) {s : State} (h : Inv s)
    (hn : ¬ InSession .absorbing s) :
    ∃ t, execAll (ps.map .absorb) s = .next t ∧ t.engine.lanes = s.engine.lanes ∧
      t.engine.pending = s.engine.pending ∧ t.engine.phase = s.engine.phase := by
  induction ps generalizing s with
  | nil => exact ⟨s, rfl, rfl, rfl, rfl⟩
  | cons d ds ih =>
    obtain ⟨u, hu⟩ := h.exec_completes (.absorb d)
    obtain failed | ⟨run, -⟩ := exec_failed_or_run hu
    · obtain ⟨locked, lanes, pending, phase⟩ := failed.locked_and_kept
      obtain ⟨t, hx, lanes', pending', phase'⟩ := ih (h.failed failed) fun session =>
        absurd locked (ne_true_of_eq_false session.unlocked)
      refine ⟨t, ?_, lanes'.trans lanes, pending'.trans pending, phase'.trans phase⟩
      rw [List.map_cons, execAll_cons_next hu, hx]
    · exact absurd run hn

/-- A list of ABSORBs and STATs does to a session what one ABSORB of all their bytes does, LAST aside (R212, R214). -/
theorem execAll_absorb_stat {is : List Instr} (his : ∀ i ∈ is, i.opcode ∈ [.absorb, .stat]) {s : State}
    (h : Live s .absorbing) :
    ∃ t, execAll is s = .next t ∧ Live t .absorbing ∧
      t.engine = { s.engine.absorb (is.flatMap dataOf) with last := t.engine.last } := by
  induction is generalizing s with
  | nil =>
    refine ⟨s, rfl, h, ?_⟩
    rw [List.flatMap_nil, absorb_nil (h.inv.pending_lt h.phase)]
  | cons i is ih =>
    obtain ⟨hi, rest⟩ := List.forall_mem_cons.mp his
    cases i with
    | absorb d =>
      obtain ⟨t, hx, hl, he⟩ := ih rest (h.absorb d)
      refine ⟨t, ?_, hl, ?_⟩
      · rw [execAll_cons_next (exec_of_mayRun (i := .absorb d) (h.inSession (by decide)))]
        exact hx
      · rw [List.flatMap_cons, dataOf, ← absorb_absorb (h.one_le_rateBytes (by decide))]
        exact he
    | stat => exact ih rest (h.complete (i := .stat) trivial nofun h.phase)
    | init | digest | squeeze | fastsqz | ksxor | permute | rdlane | wrlane | dispose =>
      simp [Instr.opcode] at hi

/-- `k` SQUEEZEs leave the lanes of `k` discarded squeezes, and write KSBLK, KSPTR and LAST beside them: as the last of
them does, if there is one (R206, R208). -/
theorem execAll_squeeze (k : Nat) {s : State} (h : Live s .squeezing) :
    ∃ t, execAll (List.replicate k .squeeze) s = .next t ∧ Live t .squeezing ∧
      t.engine =
        { s.engine with
          lanes := squeezeTimes s.engine.rateBytes s.engine.outBytes k s.engine.lanes
          ksblk := t.engine.ksblk
          ksptr := t.engine.ksptr
          last := t.engine.last } ∧
      (1 ≤ k → t.engine.ksptr = 0 ∧ t.engine.last = .ok ∧ lastData t = some t.engine.ksblk) := by
  induction k with
  | zero => exact ⟨s, rfl, h, rfl, nofun⟩
  | succ k ih =>
    obtain ⟨t, hx, hl, he, -⟩ := ih
    have run := hl.inSession (by decide)
    refine ⟨_, ?_, hl.complete (i := .squeeze) run nofun hl.phase, ?_, fun _ => ⟨rfl, rfl, lastData_complete ..⟩⟩
    · rw [List.replicate_succ', execAll_append_next hx]
      exact execAll_cons_next (exec_of_mayRun (i := .squeeze) run)
    · rw [he, squeezeTimes_add]
      rfl

end Sys2Proof.Safety

namespace Sys2Proof.Proofs

open Sys2Proof.Machine Sys2Proof.Safety

/-- Settles O39: beyond the block the byte XORed in is zero. -/
theorem xorBlockIsBytewise : Obligations.XorBlockIsBytewise := by
  intro A blk k _ hk
  rw [stateByte_xorBlock A blk hk]
  split
  next inside => rw [List.getD_eq_getElem _ _ inside]
  next beyond => rw [List.getD_eq_default _ _ (by omega)]; exact BitVec.xor_zero

/-- Settles O41, by AbsorbBlocks' closed form. -/
theorem absorbBlocksUnrolls : Obligations.AbsorbBlocksUnrolls :=
  fun _ A buf hR => ⟨absorbBlocks_of_le hR A, absorbBlocks_of_lt A, absorbBlocks_remainder_lt hR A buf,
    congrArg Prod.snd (absorbBlocks_eq hR A buf)⟩

/-- Settles O42: Extract gives the sponge's output, whose bytes come R per pass. -/
theorem extractionPasses : Obligations.ExtractionPasses := by
  intro R n A hR _
  refine ⟨extract_length hR n A, congrArg Prod.fst (extract_eq hR n A), fun k hk => ?_⟩
  rw [extract_eq hR, spongeOutput_eq_map hR, List.getElem?_map, List.getElem?_range hk, Option.map_some]

/-- Settles O43: a legal r and c are below 1600 and keep their value in 11 bits. -/
theorem initStartsSession : Obligations.InitStartsSession := by
  intro s r c o hf hr hc hs hr8 ho ho8 hm
  have legal := (legalSpec_iff ..).mpr ⟨hr, hc, hs, hr8, ho, ho8, hm⟩
  have rate : (r.setWidth 11).toNat = r.toNat := by rw [BitVec.toNat_setWidth]; omega
  have capacity : (c.setWidth 11).toNat = c.toNat := by rw [BitVec.toNat_setWidth]; omega
  exact ⟨_, exec_init_legal hf legal, fun i => by simp, rfl, rate, capacity, rfl, rfl, rfl, rfl, rfl, hf, rfl⟩

/-- Settles O44: INIT's check is membership in the set of R201, and each example breaks one of its conditions. -/
theorem initLegalOperandsExactly : Obligations.InitLegalOperandsExactly := by
  refine ⟨fun s r c o hf => ⟨fun h => ?_, fun h => ?_⟩, fun s r c o hf => ?_⟩
  · exact ⟨_, exec_init_legal hf ((legalSpec_iff_multiples ..).mpr h), rfl⟩
  · exact exec_init_illegal hf (mt (legalSpec_iff_multiples ..).mp h)
  · refine ⟨exec_init_illegal hf ?_, exec_init_illegal hf ?_, exec_init_illegal hf ?_, exec_init_illegal hf ?_,
      exec_init_illegal hf ?_, exec_init_illegal hf ?_, exec_init_illegal hf ?_,
      fun beyond => exec_init_illegal hf ?_⟩ <;>
      intro legal <;> obtain ⟨hr, hc, hs, hr8, ho, ho8, hm⟩ := (legalSpec_iff ..).mp legal
    · exact absurd hc (by decide)
    · exact absurd hr (by decide)
    · exact absurd hs (by decide)
    · exact absurd hs (by decide)
    · exact absurd hr8 (by decide)
    · exact absurd ho (by decide)
    · exact absurd ho8 (by decide)
    · exact absurd hm beyond.not_ge

/-- Settles O46: ABSORB's body is AbsorbBlocks of PENDING and the data, and its remainder is their length mod R. -/
theorem absorbResult : Obligations.AbsorbResult := by
  intro s data h
  refine ⟨exec_of_mayRun (i := .absorb data) (h.inSession (by decide)), ?_, ?_⟩
  · rw [absorbBlocks_remainder_length (h.one_le_rateBytes (by decide)), List.length_append]
  · rintro rfl
    rw [List.append_nil, absorbBlocks_of_lt _ (h.inv.pending_lt h.phase)]

/-- Settles O47: DIGEST's body, and the padded bytes are whole blocks. -/
theorem digestResult : Obligations.DigestResult :=
  fun _ final h => ⟨absorbBlocks_pad_remainder (h.one_le_rateBytes (by decide)) ..,
    exec_of_mayRun (i := .digest final) (h.inSession (by decide))⟩

/-- Settles O48: the two bodies, with F counted over the discarded squeezes. -/
theorem squeezeAndFastSqueezeResults : Obligations.SqueezeAndFastSqueezeResults := by
  intro s h
  have run := h.inSession (by decide)
  have session := h.session (by decide)
  refine ⟨exec_of_mayRun (i := .squeeze) run, fun k => ?_⟩
  rw [← squeezeTimes_eq session.rateBytes_range.1 session.one_le_outBytes]
  exact exec_of_mayRun (i := .fastsqz k) run

/-- Settles O50: the last of k SQUEEZEs alone decides KSBLK and KSPTR, and FASTSQZ counts add up. -/
theorem fastSqueezeCountLaw : Obligations.FastSqueezeCountLaw := by
  intro s h
  have run := h.inSession (by decide)
  have session := h.session (by decide)
  have fast (k : BitVec 16) := exec_of_mayRun (i := .fastsqz k) run
  refine ⟨fun k => ?_, fun a b c hab => ?_⟩
  · have count := squeezeTimes_eq session.rateBytes_range.1 session.one_le_outBytes k.toNat s.engine.lanes
    obtain ⟨u, hx, -, he, newest⟩ := execAll_squeeze k.toNat h
    refine ⟨_, u, fast k, hx, ?_, count, fun hk => ?_⟩
    · rw [he]
      rfl
    · obtain ⟨ksptr, last, data⟩ := newest hk
      rw [ksptr, last] at he
      exact ⟨he, if_pos hk, data⟩
  · have more := (h.complete (i := .fastsqz a) run nofun h.phase).inSession (by decide)
    have both := (execAll_cons_next (fast a)).trans
      ((execAll_cons_next (exec_of_mayRun (i := .fastsqz b) more)).trans (execAll_nil _))
    have sum := fastSqueeze_fastSqueeze s.engine a.toNat b.toNat
    rw [hab] at sum
    exact ⟨_, _, both, fast c, congrArg (fun e : Engine => { e with last := .ok }) sum⟩

/-- Settles O52: STAT has no check and an empty body. -/
theorem statChangesLastOnly : Obligations.StatChangesLastOnly :=
  fun _ => exec_of_mayRun (i := .stat) trivial

/-- Settles O53: the commands between INIT and DIGEST are one ABSORB of their bytes, and that before DIGEST is DIGEST of
the whole. -/
theorem digestEqualsKeccakSponge : Obligations.DigestEqualsKeccakSponge := by
  intro s r c o is final h hf hl his
  have start := live_startSession h hf hl
  have one_le := start.one_le_rateBytes (by decide)
  obtain ⟨t, hx, live, he⟩ := execAll_absorb_stat his start
  have rate : (s.complete (s.engine.startSession r c o, [])).engine.rateBytes = r.toNat / 8 :=
    SessionInv.startSession_rateBytes hl s.engine
  have hash : (t.engine.digest final).2 = keccakSponge (r.toNat / 8) (o.toNat / 8) (is.flatMap dataOf ++ final) := by
    have whole := congrArg Prod.snd (digest_absorb one_le (is.flatMap dataOf) final)
    rw [digest_of_zero one_le rfl rfl, rate] at whole
    rw [he]
    exact whole
  refine ⟨t.complete (t.engine.digest final), ?_, rfl, (lastData_complete ..).trans (congrArg some hash), hash⟩
  rw [execAll_cons_next (exec_of_mayRun (i := .init r c o) ⟨hf, hl⟩)]
  refine (execAll_append_next hx).trans ?_
  exact execAll_cons_next (exec_of_mayRun (i := .digest final) (live.inSession (by decide)))

/-- Settles O54: where ABSORB runs, a list of them depends on the joined bytes only; elsewhere none runs. -/
theorem streamingEquivalence : Obligations.StreamingEquivalence := by
  intro s ps qs h joined
  by_cases session : InSession .absorbing s
  · have live : Live s .absorbing := ⟨h, session.unlocked, session.phase⟩
    obtain ⟨t, ht, -, et⟩ := execAll_absorb ps live
    obtain ⟨u, hu, -, eu⟩ := execAll_absorb qs live
    rw [joined] at et
    refine ⟨t, u, ht, hu, ?_⟩
    rw [et, eu]
    exact ⟨rfl, rfl, rfl⟩
  · obtain ⟨t, ht, lanes, pending, phase⟩ := execAll_absorb_of_not_inSession ps h session
    obtain ⟨u, hu, lanes', pending', phase'⟩ := execAll_absorb_of_not_inSession qs h session
    exact ⟨t, u, ht, hu, lanes.trans lanes'.symm, pending.trans pending'.symm, phase.trans phase'.symm⟩

end Sys2Proof.Proofs
end

section
/-! Proofs about 43_keystream.md: KSXOR's engine in closed form; KSXOR under joining, LAST and its own output; what the
engine and MAX_OUT_BYTES alone decide of a run; lists of commands in a session squeezing; and last the statements. -/

namespace Sys2Proof.Machine

open Sys2Proof.Safety

/-! ### KSXOR's engine in closed form (R241) -/

theorem refill_of_exhausted {e : Engine} (h : e.ksptr = e.outBytes) :
    e.refill = e.latchBlock (squeezeOp e.rateBytes e.outBytes e.lanes) := if_pos h

theorem refill_of_unused {e : Engine} (h : e.ksptr ≠ e.outBytes) : e.refill = e := if_neg h

/-- The engine with `m` further squeezes performed, the last of them latched as the keystream block, and the cursor at
`p`. -/
def Engine.squeezedTo (e : Engine) (m p : Nat) : Engine :=
  { e with
    lanes := squeezedLanes e.rateBytes e.outBytes m e.lanes
    ksblk := if m = 0 then e.ksblk else squeezedBlock e.rateBytes e.outBytes (m - 1) e.lanes
    ksptr := p }

/-- A squeeze latched first is one squeeze more. -/
theorem squeezedTo_latchBlock (e : Engine) (k m p : Nat) :
    Engine.squeezedTo { e.latchBlock (squeezeOp e.rateBytes e.outBytes e.lanes) with ksptr := k } m p =
      e.squeezedTo (m + 1) p := by
  have block : (if m = 0 then (squeezeOp e.rateBytes e.outBytes e.lanes).2
      else squeezedBlock e.rateBytes e.outBytes (m - 1) (squeezeOp e.rateBytes e.outBytes e.lanes).1) =
      squeezedBlock e.rateBytes e.outBytes m e.lanes := by
    cases m with
    | zero => rfl
    | succ m => rw [if_neg m.succ_ne_zero, Nat.add_sub_cancel, squeezedBlock_succ]
  unfold Engine.squeezedTo
  rw [if_neg m.succ_ne_zero, Nat.add_sub_cancel, ← block]
  rfl

/-- j squeezes evaluate F j times as often as one (R193, R325). -/
theorem squeezedLanes_eq {R n : Nat} (hR : 1 ≤ R) (hn : 1 ≤ n) (j : Nat) (A : Lanes) :
    squeezedLanes R n j A = keccakF^[j * passes R n] A := by
  have one : (fun B => (squeezeOp R n B).1) = keccakF^[passes R n] := funext (squeezeOp_lanes hR hn)
  rw [squeezedLanes, one, ← Function.iterate_mul, Nat.mul_comm]

/-- With a byte left in the block, using it is no refill (R243). -/
theorem refills_of_used {e : Engine} {k : Nat} (hk : k < e.outBytes) (len : Nat) :
    refills { e with ksptr := k + 1 } len = (k + len) / e.outBytes := by
  cases len with
  | zero => exact (Nat.div_eq_of_lt hk).symm
  | succ len =>
    have used : k + 1 + (len + 1) - 1 = k + (len + 1) := by omega
    rw [refills, if_neg len.succ_ne_zero, used]
    rfl

theorem refills_succ (e : Engine) (len : Nat) : refills e (len + 1) = (e.ksptr + len) / e.outBytes :=
  if_neg len.succ_ne_zero

/-! ### KSXOR of joined data, of its own output, and under LAST -/

theorem ksxorLoop_append (x y : List Byte) (e : Engine) :
    ksxorLoop (x ++ y) e =
      ((ksxorLoop y (ksxorLoop x e).1).1, (ksxorLoop x e).2 ++ (ksxorLoop y (ksxorLoop x e).1).2) := by
  induction x generalizing e with
  | nil => rfl
  | cons b bs ih => rw [List.cons_append, ksxorLoop, ih]; rfl

/-- KSXOR of a KSXOR's response from the same engine gives the data back, and leaves the same engine (R245). -/
theorem ksxorLoop_response (d : List Byte) (e : Engine) :
    ksxorLoop (ksxorLoop d e).2 e = ((ksxorLoop d e).1, d) := by
  induction d generalizing e with
  | nil => rfl
  | cons b bs ih => simp only [ksxorLoop, ih, BitVec.xor_assoc, BitVec.xor_self, BitVec.xor_zero]

theorem refill_withLast (e : Engine) (l : Last) :
    Engine.refill { e with last := l } = { e.refill with last := l } := by
  by_cases h : e.ksptr = e.outBytes
  · rw [refill_of_exhausted h, refill_of_exhausted (e := { e with last := l }) h]
    rfl
  · rw [refill_of_unused h, refill_of_unused (e := { e with last := l }) h]

/-- KSXOR neither reads nor writes LAST before its end (R241). -/
theorem ksxorLoop_withLast (d : List Byte) (e : Engine) (l : Last) :
    ksxorLoop d { e with last := l } = ({ (ksxorLoop d e).1 with last := l }, (ksxorLoop d e).2) := by
  induction d generalizing e with
  | nil => rfl
  | cons b bs ih =>
    have used := ih { e.refill with ksptr := e.refill.ksptr + 1 }
    simp only [ksxorLoop, refill_withLast]
    rw [used]

/-- KSXOR, STAT and RDLANE do to the engine, and to the keystream output, what KSXOR of their data bytes does (R242). -/
theorem bodyOf_eq_ksxorLoop {i : Instr} (hi : i.opcode ∈ [.ksxor, .stat, .rdlane]) (e : Engine) :
    (bodyOf i e).1 = (ksxorLoop (dataOf i) e).1 ∧
      (if i.opcode = .ksxor then (bodyOf i e).2 else []) = (ksxorLoop (dataOf i) e).2 := by
  cases i with
  | ksxor d => exact ⟨rfl, rfl⟩
  | stat => exact ⟨rfl, rfl⟩
  | rdlane n => exact ⟨rfl, rfl⟩
  | init | absorb | digest | squeeze | fastsqz | permute | wrlane | dispose => simp [Instr.opcode] at hi

/-! ### DIGEST -/

/-- The lanes after DIGEST of an engine that has absorbed nothing: F between the extraction passes (R192, R213). -/
theorem digest_lanes_of_zero {e : Engine} (hR : 1 ≤ e.rateBytes) (hlanes : e.lanes = Vector.replicate 25 0)
    (hpending : e.pending = []) (m : List Byte) :
    (e.digest m).1.lanes = keccakF^[passes e.rateBytes e.outBytes - 1] (spongeState e.rateBytes m) := by
  simp [Engine.digest, hlanes, hpending, absorbBlocks_eq hR, extract_eq hR, spongeState]

/-! ### What the engine and MAX_OUT_BYTES alone decide of a run (R250) -/

/-- The same engine and MAX_OUT_BYTES: what a command's answer depends on. -/
structure SameEngine (s s' : State) : Prop where
  engine : s.engine = s'.engine
  maxOutBytes : s.maxOutBytes = s'.maxOutBytes

theorem SameEngine.respond {s s' : State} (h : SameEngine s s') (e : Engine) (l : Last) (d : List Byte) :
    SameEngine (s.respond e l d) (s'.respond e l d) := ⟨rfl, h.maxOutBytes⟩

theorem SameEngine.lockOut {s s' : State} (h : SameEngine s s') : SameEngine s.lockOut s'.lockOut := by
  rw [State.lockOut, State.lockOut, h.engine]
  exact h.respond ..

theorem SameEngine.raise {s s' : State} (h : SameEngine s s') (c : Err) : SameEngine (s.raise c) (s'.raise c) := by
  rw [State.raise, State.raise, h.engine]
  exact h.respond ..

theorem SameEngine.complete {s s' : State} (h : SameEngine s s') (r : Engine × List Byte) :
    SameEngine (s.complete r) (s'.complete r) := h.respond ..

/-- A command answers two states with the same engine with two such states. -/
theorem SameEngine.exec {s s' t : State} (h : SameEngine s s') {i : Instr} (hx : exec i s = .next t) :
    ∃ t', Machine.exec i s' = .next t' ∧ SameEngine t t' := by
  obtain ⟨r, c, o, rfl⟩ | ⟨p, -, -, hi⟩ | ⟨-, hi⟩ | rfl | rfl := exec_shape i
  · rw [exec_init, execInit, h.engine, h.maxOutBytes] at hx
    rw [exec_init, execInit]
    split_ifs at hx ⊢ <;> cases hx
    · exact ⟨_, rfl, h.lockOut⟩
    · exact ⟨_, rfl, h.complete _⟩
    · exact ⟨_, rfl, h.raise _⟩
  · rw [hi, spongeCommand, h.engine] at hx
    rw [hi, spongeCommand]
    split_ifs at hx ⊢ <;> cases hx
    · exact ⟨_, rfl, h.lockOut⟩
    · exact ⟨_, rfl, h.raise _⟩
    · exact ⟨_, rfl, h.raise _⟩
    · exact ⟨_, rfl, h.complete _⟩
  · rw [hi, rawCommand, h.engine] at hx
    rw [hi, rawCommand]
    split_ifs at hx ⊢ <;> cases hx
    · exact ⟨_, rfl, h.lockOut⟩
    · exact ⟨_, rfl, h.raise _⟩
    · exact ⟨_, rfl, h.complete _⟩
  · cases hx
    exact ⟨_, rfl, h.complete _⟩
  · cases hx
    rw [h.engine]
    exact ⟨_, rfl, h.complete _⟩

theorem SameEngine.execAll {is : List Instr} {s s' t : State} (h : SameEngine s s') (hx : execAll is s = .next t) :
    ∃ t', Machine.execAll is s' = .next t' ∧ SameEngine t t' := by
  induction is generalizing s s' with
  | nil => cases hx; exact ⟨s', rfl, h⟩
  | cons i is ih =>
    cases hi : Machine.exec i s with
    | next u =>
      obtain ⟨u', hi', hu⟩ := h.exec hi
      rw [execAll_cons_next hi] at hx
      rw [execAll_cons_next hi']
      exact ih hu hx
    | fault r => simp [Machine.execAll, hi] at hx
    | refused r => simp [Machine.execAll, hi] at hx

end Sys2Proof.Machine

namespace Sys2Proof.Safety

open Sys2Proof.Machine

/-! ### KSXOR's engine in a session (R241, R243) -/

/-- KSXOR performs its refills' squeezes, latches the last of them and moves the cursor by its data's length. -/
theorem SessionInv.ksxorLoop_engine {m : Nat} {e : Engine} (h : SessionInv m e) (d : List Byte) :
    (Machine.ksxorLoop d e).1 =
      e.squeezedTo (refills e d.length) (e.ksptr + d.length - refills e d.length * e.outBytes) := by
  induction d generalizing e with
  | nil => simp [Machine.ksxorLoop, refills, Engine.squeezedTo, squeezedLanes]
  | cons b bs ih =>
    have hn := h.one_le_outBytes
    rw [Machine.ksxorLoop, ih (h.refill.withKsptr h.refill_ksptr_lt), refills_of_used h.refill_ksptr_lt,
      List.length_cons, refills_succ]
    by_cases exhausted : e.ksptr = e.outBytes
    · have count : (e.ksptr + bs.length) / e.outBytes = (0 + bs.length) / e.outBytes + 1 := by
        rw [exhausted, Nat.add_div_left _ hn, Nat.zero_add]
      have cursor : 0 + 1 + bs.length - (0 + bs.length) / e.outBytes * e.outBytes =
          e.ksptr + (bs.length + 1) - ((0 + bs.length) / e.outBytes + 1) * e.outBytes := by
        rw [exhausted, Nat.succ_mul]
        omega
      rw [refill_of_exhausted exhausted, count, ← squeezedTo_latchBlock e (0 + 1), ← cursor]
      rfl
    · rw [refill_of_unused exhausted, Nat.add_comm bs.length, ← Nat.add_assoc]
      rfl

/-! ### Lists of commands under the invariants -/

theorem Inv.exec {i : Instr} {s t : State} (h : Inv s) (hx : exec i s = .next t) : Inv t := by
  obtain failed | ⟨run, rfl⟩ := exec_failed_or_run hx
  · exact h.failed failed
  · exact h.complete run

theorem Inv.execAll {is : List Instr} {s t : State} (h : Inv s) (hx : execAll is s = .next t) : Inv t := by
  induction is generalizing s with
  | nil => cases hx; exact h
  | cons i is ih =>
    obtain ⟨u, hu⟩ := h.exec_completes i
    rw [execAll_cons_next hu] at hx
    exact ih (h.exec hu) hx

/-- Under the invariants every list of commands runs to its end. -/
theorem Inv.execAll_completes {s : State} (h : Inv s) (is : List Instr) : ∃ t, Machine.execAll is s = .next t := by
  induction is generalizing s with
  | nil => exact ⟨s, rfl⟩
  | cons i is ih =>
    obtain ⟨u, hu⟩ := h.exec_completes i
    rw [execAll_cons_next hu]
    exact ih (h.exec hu)

/-- INIT leaves the same engine in two unlocked states with the invariants: it keeps only FAULT and CAUSE, and these are
0 and NONE (R312). -/
theorem sameEngine_startSession {s₁ s₂ : State} (h₁ : Inv s₁) (h₂ : Inv s₂) (hf₁ : s₁.engine.fault = false)
    (hf₂ : s₂.engine.fault = false) (hm : s₁.maxOutBytes = s₂.maxOutBytes) (r c o : Word32) :
    SameEngine (s₁.complete (s₁.engine.startSession r c o, [])) (s₂.complete (s₂.engine.startSession r c o, [])) := by
  refine ⟨?_, hm⟩
  simp [Engine.startSession, hf₁, hf₂, h₁.cause_none hf₁, h₂.cause_none hf₂]

/-! ### Lists of commands in a session squeezing -/

theorem Live.ksxor {s : State} (h : Live s .squeezing) (d : List Byte) :
    Live (s.complete (ksxorLoop d s.engine)) .squeezing :=
  h.complete (i := .ksxor d) (h.inSession (by decide)) nofun ((ksxorLoop_phase d s.engine).trans h.phase)

/-- KSXORs, STATs and RDLANEs run in every session squeezing. -/
theorem Live.mayRun_keystream {s : State} (h : Live s .squeezing) {i : Instr}
    (hi : i.opcode ∈ [.ksxor, .stat, .rdlane]) : MayRun i s := by
  cases i with
  | ksxor d => exact h.inSession (by decide)
  | stat => trivial
  | rdlane n => exact h.inAnySession (by decide)
  | init | absorb | digest | squeeze | fastsqz | permute | wrlane | dispose => simp [Instr.opcode] at hi

/-- A list of KSXORs, STATs and RDLANEs does to a session, and returns from its KSXORs, what one KSXOR of all their data
does, LAST aside (R242). -/
theorem execAll_keystream {is : List Instr} (his : ∀ i ∈ is, i.opcode ∈ [.ksxor, .stat, .rdlane]) {s : State}
    (h : Live s .squeezing) :
    ∃ t rs, execAll is s = .next t ∧ t.responses = s.responses ++ rs ∧
      ksxorData is rs = (ksxorLoop (is.flatMap dataOf) s.engine).2 ∧
      t.engine =
        { (ksxorLoop (is.flatMap dataOf) s.engine).1 with last := if is = [] then s.engine.last else .ok } := by
  induction is generalizing s with
  | nil => exact ⟨s, [], rfl, (List.append_nil _).symm, rfl, rfl⟩
  | cons i is ih =>
    obtain ⟨hi, rest⟩ := List.forall_mem_cons.mp his
    have run := h.mayRun_keystream hi
    obtain ⟨engine, data⟩ := bodyOf_eq_ksxorLoop hi s.engine
    have phase : (bodyOf i s.engine).1.phase = .squeezing := by rw [engine, ksxorLoop_phase, h.phase]
    have notDispose : i ≠ .dispose := by rintro rfl; simp [Instr.opcode] at hi
    obtain ⟨t, rs, hx, hr, hd, he⟩ := ih rest (h.complete run notDispose phase)
    rw [complete_engine, engine, ksxorLoop_withLast] at hd he
    refine ⟨t, _ :: rs, ?_, hr.trans (List.append_assoc ..), ?_, ?_⟩
    · rw [execAll_cons_next (exec_of_mayRun run), hx]
    · rw [List.flatMap_cons, ksxorLoop_append, ← hd, ← data]
      rfl
    · rw [List.flatMap_cons, ksxorLoop_append, he]
      simp

/-- The responses of KSXORs in one session, fed to a second with the same engine, give the data back (R245). -/
theorem execAll_ksxor_roundTrip (D : List (List Byte)) {s₁ s₂ : State} (h₁ : Live s₁ .squeezing)
    (h₂ : Live s₂ .squeezing) (he : s₁.engine = s₂.engine) :
    ∃ t₁ t₂ rs₁ rs₂, execAll (D.map .ksxor) s₁ = .next t₁ ∧ t₁.responses = s₁.responses ++ rs₁ ∧
      execAll ((rs₁.map (·.data)).map .ksxor) s₂ = .next t₂ ∧ t₂.responses = s₂.responses ++ rs₂ ∧
      rs₂.map (·.data) = D := by
  induction D generalizing s₁ s₂ with
  | nil => exact ⟨s₁, s₂, [], [], rfl, (List.append_nil _).symm, rfl, (List.append_nil _).symm, rfl⟩
  | cons d ds ih =>
    have back := ksxorLoop_response d s₂.engine
    have live₁ : Live (s₁.complete (ksxorLoop d s₂.engine)) .squeezing := he ▸ h₁.ksxor d
    have live₂ : Live (s₂.complete ((ksxorLoop d s₂.engine).1, d)) .squeezing := back ▸ h₂.ksxor _
    have run₁ : exec (.ksxor d) s₁ = .next (s₁.complete (ksxorLoop d s₂.engine)) :=
      he ▸ exec_of_mayRun (i := .ksxor d) (h₁.inSession (by decide))
    have run₂ : exec (.ksxor (ksxorLoop d s₂.engine).2) s₂ = .next (s₂.complete ((ksxorLoop d s₂.engine).1, d)) :=
      back ▸ exec_of_mayRun (i := .ksxor _) (h₂.inSession (by decide))
    obtain ⟨t₁, t₂, rs₁, rs₂, hx₁, hr₁, hx₂, hr₂, hd⟩ := ih live₁ live₂ rfl
    refine ⟨t₁, t₂, _ :: rs₁, _ :: rs₂, ?_, hr₁.trans (List.append_assoc ..), ?_,
      hr₂.trans (List.append_assoc ..), ?_⟩
    · rw [List.map_cons, execAll_cons_next run₁, hx₁]
    · rw [List.map_cons, List.map_cons, execAll_cons_next run₂, hx₂]
    · rw [List.map_cons, hd]

/-! ### KSOPEN and CONFIRM -/

/-- KSOPEN starts a session in SQUEEZING that has absorbed P followed by K, its first block unused (R246). -/
theorem execAll_pseudoKsopen {r c o : Word32} (P K : List Byte) {s : State} (h : Inv s) (hf : s.engine.fault = false)
    (hl : legalSpec s.maxOutBytes r.toNat c.toNat o.toNat = true) :
    ∃ t, execAll (pseudoKsopen r c o P K) s = .next t ∧ Live t .squeezing ∧
      t.engine.rateBytes = r.toNat / 8 ∧ t.engine.outBytes = o.toNat / 8 ∧
      t.engine.lanes = keccakF^[passes (r.toNat / 8) (o.toNat / 8) - 1] (spongeState (r.toNat / 8) (P ++ K)) ∧
      t.engine.ksptr = 0 ∧ t.engine.ksblk = keccakSponge (r.toNat / 8) (o.toNat / 8) (P ++ K) ∧
      lastData t = some t.engine.ksblk := by
  have start := live_startSession h hf hl
  have one_le := start.one_le_rateBytes (by decide)
  obtain ⟨t, hx, live, he⟩ := execAll_pseudoAbsorbl P start
  obtain ⟨u, hu, hd, data⟩ := execAll_pseudoDigestl K live
  have rate : (s.complete (s.engine.startSession r c o, [])).engine.rateBytes = r.toNat / 8 :=
    SessionInv.startSession_rateBytes hl s.engine
  have whole := digest_absorb one_le P K
  have hash := digest_of_zero one_le rfl rfl (P ++ K)
  have lanes := digest_lanes_of_zero one_le rfl rfl (P ++ K)
  rw [← whole, rate] at hash lanes
  have run : execAll (pseudoKsopen r c o P K) s = .next u := by
    rw [pseudoKsopen, execAll_cons_next (exec_of_mayRun (i := .init r c o) ⟨hf, hl⟩)]
    exact (execAll_append_next hx).trans hu
  refine ⟨u, run, ⟨h.execAll run, ?_, ?_⟩, ?_, ?_, ?_, ?_, ?_, ?_⟩
  · rw [hd]; exact live.unlocked
  · rw [hd]; rfl
  · rw [hd, he]; exact rate
  · rw [hd, he]; rfl
  · rw [hd, he]; exact lanes
  · rw [hd]; rfl
  · rw [hd, he]; exact hash
  · rw [data, hd]; rfl

/-- FASTSQZL k, then SQUEEZE, is k + 1 squeezes of which the last is put out (R208, R248). -/
theorem execAll_fastsqzl_squeeze (k : Nat) {s : State} (h : Live s .squeezing) :
    ∃ t, execAll (pseudoFastsqzl k ++ [.squeeze]) s = .next t ∧
      t.engine.lanes = keccakF^[(k + 1) * passes s.engine.rateBytes s.engine.outBytes] s.engine.lanes ∧
      lastData t = some (spongeOutput s.engine.rateBytes s.engine.outBytes
        (keccakF^[k * passes s.engine.rateBytes s.engine.outBytes + 1] s.engine.lanes)) := by
  have session := h.session (by decide)
  have hR := session.rateBytes_range.1
  have hn := session.one_le_outBytes
  obtain ⟨t, hx, he⟩ := execAll_fastsqz (fastsqzCounts k) h
  rw [← pseudoFastsqzl_eq] at hx
  rw [fastsqzCounts_sum] at he
  have run : InSession .squeezing t :=
    ⟨by rw [he]; exact h.unlocked, by rw [he]; exact h.phase, by rw [he]; exact (session.fastSqueeze k).sessionOk⟩
  refine ⟨_, (execAll_append_next hx).trans (execAll_cons_next (exec_of_mayRun (i := .squeeze) run)), ?_, ?_⟩
  · rw [← squeezeTimes_eq hR hn, squeezeTimes_add, complete_engine, he]
    rfl
  · have rate : t.engine.rateBytes = s.engine.rateBytes := by rw [he]; rfl
    rw [lastData_complete, Function.iterate_succ_apply', ← squeezeTimes_eq hR hn, bodyOf, squeezeOp, rate,
      extract_eq hR, he]
    rfl

/-- CONFIRM begins as KSOPEN with an empty salt; for N = 1 that is all of it (R100). -/
theorem pseudoConfirm_one (r c o : Word32) (P : List Byte) : pseudoConfirm r c o P 1 = pseudoKsopen r c o P [] := by
  simp [pseudoConfirm, pseudoKsopen, pseudoDigestl]

/-- For N ≥ 2 come FASTSQZL (N − 2), which for N = 2 is no command, and SQUEEZE (R100). -/
theorem pseudoConfirm_add_two (r c o : Word32) (P : List Byte) (k : Nat) :
    pseudoConfirm r c o P (k + 2) = pseudoKsopen r c o P [] ++ (pseudoFastsqzl k ++ [.squeeze]) := by
  have fast : (if k + 2 > 2 then pseudoFastsqzl k else []) = pseudoFastsqzl k := by
    cases k with
    | zero => rfl
    | succ k => exact if_pos (by omega)
  rw [pseudoConfirm, Nat.add_sub_cancel, fast, if_pos (by omega)]
  simp [pseudoKsopen, pseudoDigestl]

end Sys2Proof.Safety

namespace Sys2Proof.Proofs

open Sys2Proof.Machine Sys2Proof.Safety

/-- Settles O55: KSXOR's loop in closed form, and every squeeze evaluates F once per pass. -/
theorem ksxorResult : Obligations.KsxorResult := by
  intro s data h
  have session := h.session (by decide)
  have lanes := squeezedLanes_eq session.rateBytes_range.1 session.one_le_outBytes
    (refills s.engine data.length) s.engine.lanes
  refine (exec_of_mayRun (i := .ksxor data) (h.inSession (by decide))).trans ?_
  rw [bodyOf, State.complete, session.ksxorLoop_engine, session.ksxorLoop_data, Engine.squeezedTo, lanes]
  rfl

/-- Settles O56: the commands are one KSXOR of their joined data. -/
theorem keystreamOrderLaw : Obligations.KeystreamOrderLaw := by
  intro s is h nonempty his
  have data := (h.session (by decide)).ksxorLoop_data (is.flatMap dataOf)
  obtain ⟨t, rs, hx, hr, hd, he⟩ := execAll_keystream his h
  rw [if_neg nonempty] at he
  refine ⟨t, _, hx, exec_of_mayRun (i := .ksxor (is.flatMap dataOf)) (h.inSession (by decide)), he, ?_, ?_⟩
  · rw [hr, List.drop_left, hd, data]
  · rw [lastData_complete, bodyOf, data]

/-- Settles O57: INIT forgets the past, equal engines stay equal under the same commands, and KSXOR of a KSXOR's response
gives the data back. -/
theorem cipherRoundTrip : Obligations.CipherRoundTrip := by
  intro s₁ s₂ r c o is h₁ h₂ hf₁ hf₂ hm hl
  have start := sameEngine_startSession h₁ h₂ hf₁ hf₂ hm r c o
  have init₁ := exec_of_mayRun (i := .init r c o) ⟨hf₁, hl⟩
  have init₂ := exec_of_mayRun (i := .init r c o) ⟨hf₂, hm ▸ hl⟩
  obtain ⟨a₁, ha₁⟩ := (h₁.exec init₁).execAll_completes is
  obtain ⟨a₂, ha₂, same⟩ := start.execAll ha₁
  refine ⟨a₁, a₂, (execAll_cons_next init₁).trans ha₁, (execAll_cons_next init₂).trans ha₂, same.engine,
    fun D unlocked phase => ?_⟩
  have live₁ : Live a₁ .squeezing := ⟨(h₁.exec init₁).execAll ha₁, unlocked, phase⟩
  have live₂ : Live a₂ .squeezing := ⟨(h₂.exec init₂).execAll ha₂, same.engine ▸ unlocked, same.engine ▸ phase⟩
  obtain ⟨b₁, b₂, rs₁, rs₂, hb₁, hr₁, hb₂, hr₂, hd⟩ := execAll_ksxor_roundTrip D live₁ live₂ same.engine
  refine ⟨b₁, b₂, hb₁, ?_, ?_⟩
  · rw [hr₁, List.drop_left, hb₂]
  · rw [hr₂, List.drop_left, hd]

/-- Settles O58: CONFIRM is KSOPEN with an empty salt, and for N ≥ 2 the squeezes after it. -/
theorem confirmProtocolResult : Obligations.ConfirmProtocolResult := by
  intro s r c o P N h hf hl hN
  obtain ⟨t, hx, live, rate, out, lanes, -, hash, data⟩ := execAll_pseudoKsopen P [] h hf hl
  have session := live.session (by decide)
  have hR := session.rateBytes_range.1
  have pos := one_le_passes hR session.one_le_outBytes
  rw [rate] at hR
  rw [rate, out] at pos
  rw [List.append_nil] at lanes hash
  have blocks : (rateBlocks (r.toNat / 8) (pad P (r.toNat / 8))).length = P.length / (r.toNat / 8) + 1 := by
    rw [rateBlocks, List.length_map, List.length_range, length_pad hR, Nat.mul_div_cancel_left _ hR]
  obtain _ | _ | k := N
  · omega
  · refine ⟨t, pseudoConfirm_one .. ▸ hx, ?_, ?_, blocks⟩
    · simpa [data, keccakSponge] using hash
    · simpa using lanes
  · obtain ⟨u, hu, squeezed, newest⟩ := execAll_fastsqzl_squeeze k live
    rw [rate, out, lanes, ← Function.iterate_add_apply] at squeezed newest
    refine ⟨u, ?_, ?_, ?_, blocks⟩
    · rw [pseudoConfirm_add_two, execAll_append_next hx, hu]
    · have count : k * passes (r.toNat / 8) (o.toNat / 8) + 1 + (passes (r.toNat / 8) (o.toNat / 8) - 1) =
          (k + 2 - 1) * passes (r.toNat / 8) (o.toNat / 8) := by
        rw [Nat.add_assoc, Nat.add_sub_cancel' pos, ← Nat.succ_mul]
        rfl
      rw [newest, count]
    · have count : (k + 1) * passes (r.toNat / 8) (o.toNat / 8) + (passes (r.toNat / 8) (o.toNat / 8) - 1) =
          (k + 2) * passes (r.toNat / 8) (o.toNat / 8) - 1 := by
        rw [← Nat.add_sub_assoc pos, ← Nat.succ_mul]
      rw [squeezed, count]

/-- Settles O59: DIGESTL's DIGEST is that of P followed by K, and it latches its block unused. -/
theorem ksopenProtocolResult : Obligations.KsopenProtocolResult := by
  intro s r c o P K h hf hl
  obtain ⟨t, hx, live, -, -, -, ksptr, ksblk, data⟩ := execAll_pseudoKsopen P K h hf hl
  exact ⟨t, hx, live, ksptr, ksblk, data⟩

end Sys2Proof.Proofs
end

section
/-! Proofs about 60_exceptions.md. First which words the decoder rejects, from their raw fields; then the checks of R280
one by one, each with the answer it leads to; then the statements, the check order assembled from those answers. -/

namespace Sys2Proof

open Sys2Proof.Safety

/-! ### Opcodes as numbers (R95) -/

/-- A word whose OPC is no reserved value has an assigned opcode (R95, R97). -/
theorem exists_opcode {w : Word32} (h : ¬ (w.toNat % 256 = 0 ∨ 0x0C ≤ w.toNat % 256)) :
    ∃ op : Opcode, opcField w = op.byte := by
  cases hop : Opcode.ofByte (opcField w) with
  | none => exact absurd (opcField_toNat w ▸ ofByte_eq_none.mp hop) h
  | some op => exact ⟨op, ofByte_eq_some hop⟩

theorem opc_of_opcField {w : Word32} {op : Opcode} (h : opcField w = op.byte) : w.toNat % 256 = op.byte.toNat := by
  rw [← h, opcField_toNat]

/-! ### Words the decoder rejects (R274, R275) -/

theorem decode_of_reserved {w : Word32} {p : List Byte} (hlen : p.length = plen w)
    (h : w.toNat % 256 = 0 ∨ 0x0C ≤ w.toNat % 256) : decode w p = .error .illegalOpcode := by
  have hop : Opcode.ofByte (opcField w) = none := ofByte_eq_none.mpr (opcField_toNat w ▸ h)
  simp [decode, hlen, hop]

/-- `brokenColumn` of a word's own fields. -/
def breaksColumn (w : Word32) : Bool :=
  brokenColumn (w.toNat % 256) (w.toNat / 256 % 32) (w.toNat / 8192 % 8) (w.toNat / 65536)

/-- R275's list is the decoder's column and the bound of a lane index. -/
theorem breaksColumn_iff {w : Word32} {op : Opcode} (hop : opcField w = op.byte) :
    breaksColumn w = true ↔
      columnOk op w = false ∨ ((op = .rdlane ∨ op = .wrlane) ∧ ¬ (idxField w).toNat < 25) := by
  rw [breaksColumn, ← opcField_toNat, ← idxField_toNat, ← rsvField_toNat, ← lenField_toNat, hop]
  cases op with
  | rdlane | wrlane =>
    simp [brokenColumn, columnOk, Opcode.byte, BitVec.toNat_eq]
    omega
  | init | absorb | digest | squeeze | fastsqz | ksxor | permute | dispose | stat =>
    simp [brokenColumn, columnOk, Opcode.byte, BitVec.toNat_eq]
    omega

theorem decode_of_breaksColumn {w : Word32} {p : List Byte} {op : Opcode} (hlen : p.length = plen w)
    (hop : opcField w = op.byte) (h : breaksColumn w = true) : decode w p = .error (.badOperand op) := by
  obtain hcol | ⟨lane, hidx⟩ := (breaksColumn_iff hop).mp h
  · simp [decode, hlen, hop, hcol]
  · cases hcol : columnOk op w
    · simp [decode, hlen, hop, hcol]
    · rw [decode_of_column hlen hop hcol]
      obtain rfl | rfl := lane
      · exact dif_neg hidx
      · exact dif_neg hidx

theorem decode_of_keepsColumn {w : Word32} {p : List Byte} {op : Opcode} (hlen : p.length = plen w)
    (hop : opcField w = op.byte) (h : breaksColumn w = false) : ∃ i, decode w p = .ok i ∧ i.opcode = op := by
  obtain ⟨hcol, lane⟩ := not_or.mp (mt (breaksColumn_iff hop).mpr (ne_true_of_eq_false h))
  rw [not_and_not_right] at lane
  rw [decode_of_column hlen hop (eq_true_of_ne_false hcol)]
  cases op with
  | rdlane => exact ⟨_, dif_pos (lane (.inl rfl)), rfl⟩
  | wrlane => exact ⟨_, dif_pos (lane (.inr rfl)), rfl⟩
  | init | absorb | digest | squeeze | fastsqz | ksxor | permute | dispose | stat => exact ⟨_, rfl, rfl⟩

/-- INIT's operands are the payload's numbers (R16, R93). -/
theorem init_operands_of_decode {w : Word32} {p : List Byte} {r c o : Word32} (h : decode w p = .ok (.init r c o)) :
    r.toNat = leNat (p.take 4) ∧ c.toNat = leNat ((p.drop 4).take 4) ∧ o.toNat = leNat ((p.drop 8).take 4) := by
  obtain rfl : leBytes 4 r ++ leBytes 4 c ++ leBytes 4 o = p := congrArg Prod.snd (encode_of_decode h).2
  have value (v : Word32) : leNat (leBytes 4 v) = v.toNat := by
    rw [leNat_leBytes]
    exact Nat.mod_eq_of_lt v.isLt
  simp [List.drop_append, List.take_of_length_le, List.drop_of_length_le, value]

/-- R280's check of INIT, from the payload. -/
theorem legalSpec_iff_of_decode {w : Word32} {p : List Byte} {r c o : Word32} (h : decode w p = .ok (.init r c o))
    (m : Nat) : Machine.legalSpec m r.toNat c.toNat o.toNat = true ↔
      0 < leNat (p.take 4) ∧ 0 < leNat ((p.drop 4).take 4) ∧
        leNat (p.take 4) + leNat ((p.drop 4).take 4) = 1600 ∧ leNat (p.take 4) % 8 = 0 ∧
        0 < leNat ((p.drop 8).take 4) ∧ leNat ((p.drop 8).take 4) % 8 = 0 ∧ leNat ((p.drop 8).take 4) ≤ 8 * m := by
  obtain ⟨hr, hc, ho⟩ := init_operands_of_decode h
  rw [← hr, ← hc, ← ho, Machine.legalSpec_iff]

end Sys2Proof

namespace Sys2Proof.Machine

open Sys2Proof.Safety

/-! ### The lock (R277, R280 step 1) -/

theorem lockOut_eq_lockedState (s : State) : s.lockOut = lockedState s := rfl

theorem lockExempt_eq_false_iff (op : Opcode) :
    lockExempt op = false ↔ op.byte.toNat ≠ 0x0A ∧ op.byte.toNat ≠ 0x0B := by
  cases op <;> decide

/-- Where the lock check passes, only an opcode exempt from it can meet FAULT = 1. -/
theorem unlocked_of_lock_passes {w : Word32} {op : Opcode} {s : State} (hop : opcField w = op.byte)
    (h : ¬ (s.engine.fault = true ∧ w.toNat % 256 ≠ 0x0A ∧ w.toNat % 256 ≠ 0x0B)) (hn : lockExempt op = false) :
    s.engine.fault = false := by
  rw [opc_of_opcField hop] at h
  exact eq_false_of_ne_true fun hf => h ⟨hf, (lockExempt_eq_false_iff op).mp hn⟩

theorem exec_of_locked {i : Instr} {s : State} (hf : s.engine.fault = true) (hi : lockExempt i.opcode = false) :
    exec i s = .next (lockedState s) := by
  obtain ⟨r, c, o, rfl⟩ | ⟨p, -, -, hx⟩ | ⟨-, hx⟩ | rfl | rfl := exec_shape i
  · exact if_pos hf
  · exact hx ▸ if_pos hf
  · exact hx ▸ if_pos hf
  · cases hi
  · cases hi

/-- A word that is no command is refused with LOCKED like one (R277). -/
theorem execute_of_locked {w : Word32} {p : List Byte} {s : State} (hf : s.engine.fault = true)
    (hlen : p.length = plen w) (hA : w.toNat % 256 ≠ 0x0A) (hB : w.toNat % 256 ≠ 0x0B) :
    execute w p s = .next (lockedState s) := by
  by_cases reserved : w.toNat % 256 = 0 ∨ 0x0C ≤ w.toNat % 256
  · rw [execute_of_illegalOpcode (decode_of_reserved hlen reserved), failDecode_eq, if_pos ⟨hf, rfl⟩,
      lockOut_eq_lockedState]
  · obtain ⟨op, hop⟩ := exists_opcode reserved
    rw [opc_of_opcField hop] at hA hB
    have notExempt := (lockExempt_eq_false_iff op).mpr ⟨hA, hB⟩
    cases hb : breaksColumn w
    · obtain ⟨i, hd, rfl⟩ := decode_of_keepsColumn hlen hop hb
      rw [execute_of_ok hd, exec_of_locked hf notExempt]
    · rw [execute_of_badOperand (decode_of_breaksColumn hlen hop hb), failDecode_eq, if_pos ⟨hf, notExempt⟩,
        lockOut_eq_lockedState]

/-! ### The word's own checks (R280 steps 2 and 3) -/

theorem execute_of_reserved {w : Word32} {p : List Byte} {s : State} (hf : s.engine.fault = false)
    (hlen : p.length = plen w) (h : w.toNat % 256 = 0 ∨ 0x0C ≤ w.toNat % 256) :
    execute w p s = .next (errorState s .illegalOpcode) := by
  rw [execute_of_illegalOpcode (decode_of_reserved hlen h), failDecode_eq, if_neg (by simp [hf]), raise_eq_errorState]

theorem execute_of_breaksColumn {w : Word32} {p : List Byte} {op : Opcode} {s : State}
    (hl : lockExempt op = false → s.engine.fault = false) (hlen : p.length = plen w) (hop : opcField w = op.byte)
    (h : breaksColumn w = true) : execute w p s = .next (errorState s .badOperand) := by
  have unlocked : ¬ (s.engine.fault = true ∧ lockExempt op = false) :=
    fun ⟨hf, hn⟩ => absurd hf (ne_true_of_eq_false (hl hn))
  rw [execute_of_badOperand (decode_of_breaksColumn hlen hop h), failDecode_eq, if_neg unlocked, raise_eq_errorState]

/-! ### The session and the phase (R280 steps 4 and 5) -/

/-- The eight commands that need a session (R273). -/
def needsSession : Opcode → Bool
  | .init | .dispose | .stat => false
  | .absorb | .digest | .squeeze | .fastsqz | .ksxor | .permute | .rdlane | .wrlane => true

/-- The phase a sponge command runs in; the other commands ask for none (R276). -/
def phaseNeeded : Opcode → Option Phase
  | .absorb | .digest => some .absorbing
  | .squeeze | .fastsqz | .ksxor => some .squeezing
  | .init | .permute | .rdlane | .wrlane | .dispose | .stat => none

theorem exec_of_uninit {i : Instr} {s : State} (hf : s.engine.fault = false) (hp : s.engine.phase = .uninit)
    (hi : needsSession i.opcode = true) : exec i s = .next (errorState s .notInitialised) := by
  obtain ⟨r, c, o, rfl⟩ | ⟨p, -, -, hx⟩ | ⟨-, hx⟩ | rfl | rfl := exec_shape i
  · cases hi
  · simp [hx, spongeCommand, hf, hp, raise_eq_errorState]
  · simp [hx, rawCommand, hf, hp, raise_eq_errorState]
  · cases hi
  · cases hi

theorem exec_eq_spongeCommand {i : Instr} {p : Phase} (h : phaseNeeded i.opcode = some p) :
    exec i = spongeCommand p (bodyOf i) := by
  cases i <;> cases h <;> rfl

theorem exec_of_wrongPhase {i : Instr} {p : Phase} {s : State} (hi : phaseNeeded i.opcode = some p)
    (hf : s.engine.fault = false) (hu : s.engine.phase ≠ .uninit) (hp : s.engine.phase ≠ p) :
    exec i s = .next (errorState s .wrongPhase) := by
  simp [exec_eq_spongeCommand hi, spongeCommand, hf, hu, hp, raise_eq_errorState]

/-! ### Where all checks pass (R280 step 7) -/

theorem mayRun_of_checks {i : Instr} {s : State} (h : Inv s)
    (lock : lockExempt i.opcode = false → s.engine.fault = false)
    (session : needsSession i.opcode = true → s.engine.phase ≠ .uninit)
    (phase : ∀ p, phaseNeeded i.opcode = some p → s.engine.phase = p)
    (spec : ∀ r c o, i = .init r c o → legalSpec s.maxOutBytes r.toNat c.toNat o.toNat = true) : MayRun i s := by
  cases i with
  | init r c o => exact ⟨lock rfl, spec r c o rfl⟩
  | absorb | digest | squeeze | fastsqz | ksxor =>
    exact ⟨lock rfl, phase _ rfl, h.sessionOk (session rfl)⟩
  | permute | rdlane | wrlane => exact ⟨lock rfl, session rfl⟩
  | dispose | stat => trivial

/-! ### The checks as numbers -/

theorem needsSession_iff (op : Opcode) :
    needsSession op = true ↔ 0x02 ≤ op.byte.toNat ∧ op.byte.toNat ≤ 0x09 := by
  cases op <;> decide

theorem lockExempt_of_needsSession {op : Opcode} (h : needsSession op = true) : lockExempt op = false := by
  cases op <;> cases h <;> rfl

theorem needsSession_of_phaseNeeded {op : Opcode} {p : Phase} (h : phaseNeeded op = some p) :
    needsSession op = true := by
  cases op <;> cases h <;> rfl

/-- R280's phase check, from the byte of the opcode. -/
theorem wrongPhase_iff (op : Opcode) (q : Phase) :
    ((op.byte.toNat = 0x02 ∨ op.byte.toNat = 0x03) ∧ q ≠ .absorbing) ∨
        ((op.byte.toNat = 0x04 ∨ op.byte.toNat = 0x05 ∨ op.byte.toNat = 0x06) ∧ q ≠ .squeezing) ↔
      ∃ p, phaseNeeded op = some p ∧ q ≠ p := by
  cases op <;> simp [Opcode.byte, phaseNeeded]

theorem exists_init_of_byte {i : Instr} (h : i.opcode.byte.toNat = 0x01) : ∃ r c o, i = .init r c o := by
  cases i with
  | init r c o => exact ⟨r, c, o, rfl⟩
  | absorb | digest | squeeze | fastsqz | ksxor | permute | rdlane | wrlane | dispose | stat => cases h

/-! ### The checks in their order (R280) -/

/-- What a word must answer by the LAST its first failing check leads to: the refusal, the error, or, where no check
fails, an end with OK. No failing check leads to OK. -/
def Decides (s : State) (x : Host.Outcome State Fault Refusal) : Option Last → Prop
  | some .locked => x = .next (lockedState s)
  | some (.err c) => x = .next (errorState s c)
  | some .ok => False
  | none => ∃ (e : Engine) (data : List Byte), x = .next (answered s { e with last := .ok } data)

/-- The checks that `execute`, `failDecode` and a command's meaning share out are R280's six, in its order. -/
theorem firstFailure_decides {s : State} {w : Word32} {p : List Byte} (h : Inv s) (hlen : p.length = plen w) :
    Decides s (execute w p s) (firstFailure s w p) := by
  unfold firstFailure
  dsimp only
  split
  next locked => exact execute_of_locked locked.1 hlen locked.2.1 locked.2.2
  next notLocked =>
  split
  next reserved =>
    have hf : s.engine.fault = false := eq_false_of_ne_true fun hf => notLocked ⟨hf, by omega, by omega⟩
    exact execute_of_reserved hf hlen reserved
  next assigned =>
  obtain ⟨op, hop⟩ := exists_opcode assigned
  have unlocked := unlocked_of_lock_passes hop notLocked
  split
  next broken => exact execute_of_breaksColumn unlocked hlen hop broken
  next kept =>
  obtain ⟨i, hd, rfl⟩ := decode_of_keepsColumn hlen hop (eq_false_of_ne_true kept)
  rw [execute_of_ok hd, opc_of_opcField hop]
  split
  next uninit =>
    obtain ⟨hp, range⟩ := uninit
    have hn := (needsSession_iff _).mpr range
    exact exec_of_uninit (unlocked (lockExempt_of_needsSession hn)) hp hn
  next inSession =>
  have session (hn : needsSession i.opcode = true) : s.engine.phase ≠ .uninit :=
    fun hp => inSession ⟨hp, (needsSession_iff _).mp hn⟩
  split
  next wrong =>
    obtain ⟨q, hq, hne⟩ := (wrongPhase_iff ..).mp wrong
    have hn := needsSession_of_phaseNeeded hq
    exact exec_of_wrongPhase hq (unlocked (lockExempt_of_needsSession hn)) (session hn) hne
  next phase =>
  split
  next illegal =>
    obtain ⟨hinit, illegal⟩ := illegal
    obtain ⟨r, c, o, rfl⟩ := exists_init_of_byte hinit
    exact exec_init_illegal (unlocked rfl) (mt (legalSpec_iff_of_decode hd _).mp illegal)
  next legal =>
    have run : MayRun i s := by
      refine mayRun_of_checks h unlocked session (fun q hq => ?_) fun r c o hi => ?_
      · by_contra hne
        exact phase ((wrongPhase_iff ..).mpr ⟨q, hq, hne⟩)
      · subst hi
        by_contra illegal
        exact legal ⟨rfl, mt (legalSpec_iff_of_decode hd _).mpr illegal⟩
    exact ⟨_, _, exec_of_mayRun run⟩

end Sys2Proof.Machine

namespace Sys2Proof.Proofs

open Sys2Proof.Machine Sys2Proof.Safety

/-- Settles O7: OPC is no payload opcode, and the decoder rejects the word by its opcode. -/
theorem reservedOpcodeRaisesIllegal : Obligations.ReservedOpcodeRaisesIllegal := by
  intro s w reserved
  have noPayload : plen w = 0 := by
    rw [plen_eq, if_neg (by omega)]
  refine ⟨noPayload, fun hf => execute_of_reserved hf noPayload.symm reserved, fun hf => ?_⟩
  exact execute_of_locked hf noPayload.symm (by omega) (by omega)

/-- Settles O8: R275's list is the decoder's column and lane bound, and what keeps both is a command. -/
theorem brokenColumnRaisesBadOperand : Obligations.BrokenColumnRaisesBadOperand := by
  intro s w p hf hlen low high
  obtain ⟨op, hop⟩ := exists_opcode (w := w) (by omega)
  refine ⟨execute_of_breaksColumn (fun _ => hf) hlen hop, fun kept => ?_⟩
  obtain ⟨i, hd, rfl⟩ := decode_of_keepsColumn hlen hop kept
  exact ⟨i, hd, (opc_of_opcField hop).symm, execute_of_ok hd s⟩

/-- Settles O23: the first failing check decides what the word answers. -/
theorem checksDecideInOrder : Obligations.ChecksDecideInOrder := by
  intro s w p h hlen
  have decided := firstFailure_decides h hlen
  exact ⟨fun hx => by rwa [hx] at decided, fun c hx => by rwa [hx] at decided, fun hx => by rwa [hx] at decided⟩

/-- Settles O24: a word that does not end with OK was refused or raised an error. -/
theorem failedCommandIsPrecise : Obligations.FailedCommandIsPrecise := by
  intro s t w p hx notOk
  obtain rfl | ⟨c, rfl⟩ | ⟨i, -, -, rfl⟩ := execute_next hx
  · rfl
  · rw [raise_eq_errorState]
    rfl
  · exact absurd rfl notOk

/-- Settles O25: a word that is no command meets the lock in the decoder's failure, a command in its own check, and
DISPOSE and STAT have none. -/
theorem lockedRefusesAllButDisposeAndStat : Obligations.LockedRefusesAllButDisposeAndStat := by
  intro s hf
  refine ⟨fun w p hlen hA hB => execute_of_locked hf hlen hA hB, fun i hd hs => exec_of_locked hf ?_,
    ⟨_, rfl, rfl⟩, _, rfl, rfl, rfl⟩
  cases i with
  | dispose => exact absurd rfl hd
  | stat => exact absurd rfl hs
  | init | absorb | digest | squeeze | fastsqz | ksxor | permute | rdlane | wrlane => rfl

/-- Settles O9: a step performs the oldest action. -/
theorem stepRunsDecodedCommand : Obligations.StepRunsDecodedCommand := by
  intro s w p rest i ha hd
  rw [step_cons ha, perform, execute_of_ok hd]

/-- Settles O10: there is no action to take. -/
theorem idleEngineKeepsState : Obligations.IdleEngineKeepsState := fun _ ha => step_nil ha

/-- Settles O20: every code fits the bits of its register. -/
theorem resultCodesAsListed : Obligations.ResultCodesAsListed := by
  have fits (e : Err) : (Cause.err e).code.toNat = e.code ∧ (Last.err e).code.toNat = e.code := by cases e <;> decide
  have bound (e : Err) : e.code ≤ 5 := by cases e <;> decide
  refine ⟨rfl, rfl, fits, rfl, rfl, rfl, rfl, rfl, rfl, fun c => ?_, fun l => ?_⟩
  · cases c with
    | none => decide
    | err e => exact (fits e).1 ▸ bound e
  · cases l with
    | ok | locked => decide
    | err e => exact (fits e).2 ▸ (bound e).trans (by decide)

/-- Settles O22: FAULT and CAUSE are latched on the first fault only. -/
theorem raiseLatchesFirstFaultOnly : Obligations.RaiseLatchesFirstFaultOnly := by
  refine fun s c => ⟨fun hf => ?_, fun hf => ?_⟩
  · rw [State.raise, latchFault_of_not_fault _ _ hf]
    rfl
  · rw [State.raise, latchFault_of_fault _ _ hf]
    rfl

/-- Settles O27: eight commands need a session, and the other three do not look at PHASE. -/
theorem sessionCommandsNeedInit : Obligations.SessionCommandsNeedInit := by
  intro s hp hf
  have raises {i : Instr} (hi : needsSession i.opcode = true) := exec_of_uninit hf hp hi
  refine ⟨fun d => raises rfl, fun d => raises rfl, raises rfl, fun k => raises rfl, fun d => raises rfl, raises rfl,
    fun i => raises rfl, fun i v => raises rfl, fun r c o t hx => ?_, fun t hx => ?_, fun t hx => ?_⟩
  · obtain ⟨-, rfl⟩ | ⟨-, -, rfl⟩ | ⟨-, -, rfl⟩ := execInit_next hx <;> nofun
  · cases hx; nofun
  · cases hx; nofun

/-- Settles O28: a sponge command asks for its own phase. -/
theorem wrongPhaseRaised : Obligations.WrongPhaseRaised := by
  refine fun s hf => ⟨fun hp => ?_, fun hp => ?_⟩
  · have wrong {i : Instr} (hi : phaseNeeded i.opcode = some .absorbing) :=
      exec_of_wrongPhase hi hf (hp.trans_ne nofun) (hp.trans_ne nofun)
    exact ⟨fun d => wrong rfl, fun d => wrong rfl⟩
  · have wrong {i : Instr} (hi : phaseNeeded i.opcode = some .squeezing) :=
      exec_of_wrongPhase hi hf (hp.trans_ne nofun) (hp.trans_ne nofun)
    exact ⟨wrong rfl, fun k => wrong rfl, fun d => wrong rfl⟩

end Sys2Proof.Proofs
end

section
/-! Proofs about 70_reset_and_hazards.md: the words of a malformed DISPOSE; the step that takes a reset; what a command
that ends with OK did; how many rate blocks a message has, how many squeezes KSXOR refills with, and the lanes a body
leaves; and last the statements. -/

namespace Sys2Proof

open Sys2Proof.Safety

/-! ### A malformed DISPOSE (R275, R311) -/

/-- DISPOSE carries no payload (R94). -/
theorem plen_of_dispose {w : Word32} (hop : w.toNat % 256 = 0x0A) : plen w = 0 := by
  rw [plen_eq, if_neg (by omega)]

/-- DISPOSE's one well-formed word is 0x0000000A: any other bit set breaks its column. -/
theorem breaksColumn_of_dispose {w : Word32} (hop : w.toNat % 256 = 0x0A) (hw : w ≠ 0x0000000A) :
    breaksColumn w = true := by
  have other : w.toNat ≠ 0x0A := fun h => hw (BitVec.eq_of_toNat_eq h)
  have bit : w.toNat / 8192 % 8 ≠ 0 ∨ w.toNat / 256 % 32 ≠ 0 ∨ w.toNat / 65536 ≠ 0 := by omega
  simp only [breaksColumn, brokenColumn, hop]
  obtain h | h | h := bit <;> simp [h]

end Sys2Proof

namespace Sys2Proof.Machine

/-! ### Reset -/

theorem statusWord_reset : statusWord Engine.reset = 0 := by decide

/-- A step that takes a reset answers the cleared engine, whatever it was (R310). -/
theorem step_reset {s : State} {rest : List HostAction} (h : s.actions = .reset :: rest) :
    step s = .next (State.clearEngine { s with actions := rest }) := step_cons h

/-! ### A command that ends with OK -/

theorem Failed.last_ne_ok {s t : State} (h : Failed s t) : t.engine.last ≠ .ok := by
  obtain ⟨-, rfl⟩ | ⟨-, c, rfl⟩ := h <;> nofun

/-- A command that ends with OK passed its checks and ran its body. -/
theorem run_of_last_ok {i : Instr} {s t : State} (h : exec i s = .next t) (hok : t.engine.last = .ok) :
    MayRun i s ∧ t = s.complete (bodyOf i s.engine) :=
  (exec_failed_or_run h).resolve_left fun failed => failed.last_ne_ok hok

/-! ### What R325 counts -/

theorem length_rateBlocks (R : Nat) (M : List Byte) : (rateBlocks R M).length = M.length / R := by
  simp [rateBlocks]

/-- A padded message has one block more than the whole blocks of the message (R170). -/
theorem length_rateBlocks_pad {R : Nat} (hR : 1 ≤ R) (M : List Byte) :
    (rateBlocks R (pad M R)).length = M.length / R + 1 := by
  rw [length_rateBlocks, length_pad hR, Nat.mul_div_cancel_left _ hR]

/-- KSXOR's refills are most where the current block is exhausted: then ⌈len/n⌉ (R325). -/
theorem refills_le {e : Engine} (h : e.ksptr ≤ e.outBytes) (len : Nat) :
    refills e len ≤ (len + e.outBytes - 1) / e.outBytes := by
  unfold refills
  split
  · exact Nat.zero_le _
  · exact Nat.div_le_div_right (by omega)

/-- The lanes ABSORB leaves: every whole block of PENDING and the data absorbed (R202). -/
theorem absorb_lanes {e : Engine} (hR : 1 ≤ e.rateBytes) (d : List Byte) :
    (e.absorb d).lanes = absorbedBlocks e.lanes (rateBlocks e.rateBytes (e.pending ++ d)) :=
  congrArg Prod.fst (absorbBlocks_eq hR ..)

/-- The lanes DIGEST leaves: every block of the padded input absorbed, then F between the extraction passes (R204). -/
theorem digest_lanes {e : Engine} (hR : 1 ≤ e.rateBytes) (d : List Byte) :
    (e.digest d).1.lanes = keccakF^[passes e.rateBytes e.outBytes - 1]
      (absorbedBlocks e.lanes (rateBlocks e.rateBytes (pad (e.pending ++ d) e.rateBytes))) := by
  simp [Engine.digest, absorbBlocks_eq hR, extract_eq hR]

end Sys2Proof.Machine

namespace Sys2Proof.Safety

open Sys2Proof.Machine

/-- The lanes KSXOR leaves: F once per pass of each refill (R241, R325). -/
theorem SessionInv.ksxorLoop_lanes {m : Nat} {e : Engine} (h : SessionInv m e) (d : List Byte) :
    (Machine.ksxorLoop d e).1.lanes = keccakF^[refills e d.length * passes e.rateBytes e.outBytes] e.lanes := by
  rw [h.ksxorLoop_engine]
  exact squeezedLanes_eq h.rateBytes_range.1 h.one_le_outBytes ..

/-- A command of one phase that runs under the invariants runs in a session with its invariants. -/
theorem Inv.session_of_inSession {s : State} {p : Phase} (h : Inv s) (hr : InSession p s) (hp : p ≠ .uninit) :
    SessionInv s.maxOutBytes s.engine := h.session (hr.phase.trans_ne hp)

end Sys2Proof.Safety

namespace Sys2Proof.Proofs

open Sys2Proof.Machine Sys2Proof.Safety

/-- Settles O14: an idle step and reset add no response, a word adds one. -/
theorem returnedResponsesNeverChange : Obligations.ReturnedResponsesNeverChange := by
  intro s t hst
  obtain ⟨-, rfl⟩ | ⟨rest, -, rfl⟩ | ⟨w, p, rest, -, hx⟩ := step_next hst
  · exact ⟨[], (List.append_nil _).symm, Nat.zero_le 1⟩
  · exact ⟨[], (List.append_nil _).symm, Nat.zero_le 1⟩
  · obtain ⟨-, _, hr⟩ := execute_one_response hx
    exact ⟨_, hr, le_rfl⟩

/-- Settles O18: the step answers the cleared engine, whose every field is R310's. -/
theorem resetSetsEveryPieceOfState : Obligations.ResetSetsEveryPieceOfState := by
  intro s rest ha
  have lanes (i : Fin 25) : Engine.reset.lanes[i] = 0 := by simp [Engine.reset]
  exact ⟨_, step_reset ha, rfl, lanes, rfl, rfl, rfl, rfl, rfl, rfl, rfl, rfl, rfl, rfl, statusWord_reset, rfl⟩

/-- Settles O45: INIT keeps FAULT and CAUSE only, and in an unlocked state with the invariants both are fixed. -/
theorem initForgetsThePast : Obligations.InitForgetsThePast := by
  intro s₁ s₂ r c o h₁ h₂ hm hf₁ hf₂ hl
  exact ⟨_, _, exec_of_mayRun (i := .init r c o) ⟨hf₁, hl⟩, exec_of_mayRun (i := .init r c o) ⟨hf₂, hm ▸ hl⟩,
    (sameEngine_startSession h₁ h₂ hf₁ hf₂ hm r c o).engine⟩

/-- Settles O49: a command that ends with OK ran its body, and each body's lanes are in closed form. -/
theorem workPerCommandInEvaluationsOfF : Obligations.WorkPerCommandInEvaluationsOfF := by
  intro i s t h hx hok
  obtain ⟨hr, rfl⟩ := run_of_last_ok hx hok
  cases i with
  | absorb d =>
    have session := h.session_of_inSession hr (by decide)
    refine ⟨absorb_lanes session.rateBytes_range.1 d, ?_⟩
    rw [length_rateBlocks, List.length_append, evaluationsOfF]
  | digest d =>
    have session := h.session_of_inSession hr (by decide)
    have hR := session.rateBytes_range.1
    refine ⟨digest_lanes hR d, ?_⟩
    rw [length_rateBlocks_pad hR, List.length_append, evaluationsOfF,
      Nat.add_sub_assoc (one_le_passes hR session.one_le_outBytes)]
  | squeeze =>
    have session := h.session_of_inSession hr (by decide)
    exact squeezeOp_lanes session.rateBytes_range.1 session.one_le_outBytes _
  | fastsqz k =>
    have session := h.session_of_inSession hr (by decide)
    exact squeezeTimes_eq session.rateBytes_range.1 session.one_le_outBytes k.toNat _
  | ksxor d =>
    have session := h.session_of_inSession hr (by decide)
    exact ⟨session.ksxorLoop_lanes d, refills_le session.ksptr_le d.length⟩
  | permute | rdlane | stat | init | wrlane | dispose => rfl

/-- Settles O51: DISPOSE has no check and its body is the reset engine; a malformed one breaks its column, and its opcode
is exempt from the lock. -/
theorem disposeIsSoftReset : Obligations.DisposeIsSoftReset := by
  intro s
  refine ⟨exec_of_mayRun (i := .dispose) trivial, statusWord_reset, rfl, ⟨_, rfl, rfl⟩,
    fun rest => ⟨_, _, step_reset rfl, step_reset rfl, rfl, _, step_reset rfl, rfl⟩, fun w hop hw => ?_⟩
  have opcode : opcField w = Opcode.dispose.byte := BitVec.eq_of_toNat_eq ((opcField_toNat w).trans hop)
  have exempt (h : lockExempt .dispose = false) : s.engine.fault = false := absurd h (by decide)
  exact execute_of_breaksColumn exempt (plen_of_dispose hop).symm opcode (breaksColumn_of_dispose hop hw)

end Sys2Proof.Proofs
end
